-- ==== Sys2Proof/Word.lean ====
section
/-! DEFINITION. The bit-vector types of the core: 00_scope.md rule R5 (widths) and rule R8 (bit 0 is the
least significant bit, every value is unsigned). -/

namespace Sys2Proof

/-- One memory cell or one general register, 8 bits (R5 `BYTE_WIDTH`, `REG_WIDTH`). -/
abbrev Byte := BitVec 8

/-- An instruction word, the program counter, a call-stack entry: 16 bits (R5). -/
abbrev Word := BitVec 16

/-- A 4-bit field of the instruction word (30_encoding.md R51). -/
abbrev Nibble := BitVec 4

/-- A register index: every 4-bit value names a register (10_state.md R11). -/
abbrev RegIdx := BitVec 4

/-- A 12-bit byte address: the immediate `nnn` (30_encoding.md R54) and the address of the host's load
port (70_reset_and_hazards.md R153). -/
abbrev Addr := BitVec 12

end Sys2Proof
end

