-- ==== Sys2Proof/Config.lean ====
section
/-! DEFINITION. The fixed sizes and constants of the core: 00_scope.md rule R5. They are not parameters:
the spec leaves nothing to an implementation, so there is no free value here (92_eei_decisions.md: "the
machine is small enough that a model needs no free parameter"). -/

namespace Sys2Proof.Config

/-- `MEM_SIZE`: valid byte addresses are 0 to 4095 (R5, 20_memory.md R30). -/
abbrev memSize : Nat := 4096

/-- The highest `PC` a fetch may start at: both bytes must lie inside memory (20_memory.md R35). -/
abbrev lastFetch : Nat := 4094

/-- `NREGS` (R5). -/
abbrev nregs : Nat := 16

/-- `FLAG_INDEX`: the register that is also the overflow flag (R5, 10_state.md R12). -/
abbrev flagIndex : RegIdx := 0xF

/-- `RESET_PC` (R5, 10_state.md R22). -/
abbrev resetPc : Word := 0x0000

/-- What a byte of memory reads as that nothing has written since reset: reset zeroes `MEM`
(10_state.md R22), so this is the spec's value, not a choice. -/
abbrev unlistedByte : Byte := 0x00

/-- The instruction length in bytes, the fetch stage's advance of `PC` (30_encoding.md R50,
40_step_sequencer.md R71). -/
abbrev insnBytes : Word := 2

end Sys2Proof.Config
end

