-- ==== Sys2Proof/Syntax.lean ====
section
/-! DEFINITION. The instruction set, one constructor per row of opcode_table.json (30_encoding.md rule
R56), and the written form of an instruction (30_encoding.md rule R61). -/

namespace Sys2Proof

/-- The four instructions of the core (00_scope.md R1). Operands have the width of their field, so every
term is an instruction the core has: R54 (all 4096 values of `nnn`), R55 (all 16 values of each index,
`x = y` and index 0xF included). -/
inductive Instr where
  /-- `HALT`, word 0x0000 (41_halt.md R90). -/
  | halt
  /-- `RETURN`, word 0x00EE (42_call_return.md R98). -/
  | ret
  /-- `CALL nnn`, words 0x2nnn (42_call_return.md R97). -/
  | call (nnn : Addr)
  /-- `ADD rX,rY`, words 0x8xy4 (43_add.md R105). -/
  | add (x y : RegIdx)
  deriving DecidableEq, Repr

/-- An instruction as a program text writes it, with operands that are plain numbers (R61). A number may
be too large for its field; WellFormed.lean says which written forms stand for an instruction. -/
inductive Written where
  | halt
  | ret
  | call (nnn : Nat)
  | add (x y : Nat)
  deriving DecidableEq, Repr

end Sys2Proof
end

