-- ==== Sys2Proof/WellFormed.lean ====
section
/-! DEFINITION. Which terms stand for an instruction: the operand ranges of 30_encoding.md rules R54, R55
and R61. -/

namespace Sys2Proof

/-- The operand ranges of an instruction. The field widths of `Instr` already keep them (Laws/Decode.lean,
`Instr.wf_eq_true`), because the spec makes every value of every field legal (R54, R55). -/
def Instr.wf : Instr → Bool
  | .halt => true
  | .ret => true
  | .call nnn => decide (nnn.toNat < Config.memSize)
  | .add x y => decide (x.toNat < Config.nregs) && decide (y.toNat < Config.nregs)

/-- The operand ranges of a written instruction: `nnn` is a number 0 to 4095, `X` and `Y` are register
numbers 0 to 15 (R61). -/
def Written.wf : Written → Bool
  | .halt => true
  | .ret => true
  | .call nnn => decide (nnn ≤ 4095)
  | .add x y => decide (x ≤ 15) && decide (y ≤ 15)

end Sys2Proof
end

