-- ==== Sys2Proof/Decode.lean ====
section
/-! DEFINITION. The decoder, the dispatcher's choice of instruction, and the encoder (30_encoding.md). -/

namespace Sys2Proof

/-! ## Bytes and words (20_memory.md R33: the byte at the lower address is the high byte) -/

/-- The byte stored at the lower address: bits 15:8 of the word. -/
def hiByte (w : Word) : Byte := w.extractLsb' 8 8

/-- The byte stored at the higher address: bits 7:0 of the word. -/
def loByte (w : Word) : Byte := w.extractLsb' 0 8

/-- `{byte0, byte1}`, the word of two consecutive bytes, high byte first: `(byte0 << 8) | byte1` (R32,
R33). -/
def joinBytes (byte0 byte1 : Byte) : Word := (byte0.setWidth 16 <<< 8) ||| byte1.setWidth 16

/-! ## The decoder: fields of the word (R51, R52) -/

/-- The five fields the decoder derives from a word (R51). -/
structure Fields where
  /-- operation class, bits 15:12 -/
  c : Nibble
  /-- first register index, bits 11:8 -/
  x : RegIdx
  /-- second register index, bits 7:4 -/
  y : RegIdx
  /-- sub-operation selector, bits 3:0 -/
  d : Nibble
  /-- address immediate, bits 11:0 -/
  nnn : Addr
  deriving DecidableEq, Repr

/-- The decode stage: a pure, total function of the word (R51, R52). -/
def decodeFields (w : Word) : Fields :=
  { c := w.extractLsb' 12 4, x := w.extractLsb' 8 4, y := w.extractLsb' 4 4, d := w.extractLsb' 0 4,
    nnn := w.extractLsb' 0 12 }

/-! ## The dispatcher's match (R56, 40_step_sequencer.md R70 and R73) -/

/-- The instruction a decoded tuple selects; none for every other tuple, which is illegal (R58). -/
def select (f : Fields) : Option Instr :=
  if f.c = 0x0 ∧ f.x = 0x0 ∧ f.y = 0x0 ∧ f.d = 0x0 then some .halt
  else if f.c = 0x0 ∧ f.x = 0x0 ∧ f.y = 0xE ∧ f.d = 0xE then some .ret
  else if f.c = 0x2 then some (.call f.nnn)
  else if f.c = 0x8 ∧ f.d = 0x4 then some (.add f.x f.y)
  else none

/-- The instruction a word is, if it is one. It depends on the word alone (R60). -/
def decodeWord (w : Word) : Option Instr := select (decodeFields w)

/-! ## Decoding bytes -/

/-- Why a sequence of bytes gives no instruction. -/
inductive Rejected where
  /-- Fewer than two bytes: every instruction is two bytes long (R50). -/
  | tooShort
  /-- The first two bytes form a word that is no instruction (R58). -/
  | unimplementedOpcode (word : Word)
  deriving DecidableEq, Repr

/-- The first instruction of a sequence of bytes and the bytes after it; total, rejecting by name. -/
def decode : List Byte → Except Rejected (Instr × List Byte)
  | b0 :: b1 :: rest =>
    match decodeWord (joinBytes b0 b1) with
    | some i => .ok (i, rest)
    | none => .error (.unimplementedOpcode (joinBytes b0 b1))
  | _ => .error .tooShort

/-- `w` as the hardware stores it when its bits above `nbits` are zero; an instruction is one 16-bit word
(R50). -/
def tableWord (nbits w : Nat) : Word := BitVec.ofNat 16 (w % 2 ^ nbits)

/-- The bytes of a word in memory order, high byte at the lower address (R33, R50). -/
def wordBytes (w : Word) : List Byte := [hiByte w, loByte w]

/-- The instruction the decoder reads from an opcode-table word of `nbits` bits. -/
def decodeTableWord (nbits w : Nat) : Option Instr :=
  match decode (wordBytes (tableWord nbits w)) with
  | .ok (i, _) => some i
  | .error _ => none

/-! ## The encoder (R53, R54, R55) -/

/-- The word of an instruction: format W for HALT and RETURN, format A for CALL, format R for ADD
(R53). -/
def encode : Instr → Word
  | .halt => 0x0000
  | .ret => 0x00EE
  | .call nnn => (0x2000 : Word) ||| nnn.setWidth 16
  | .add x y => (0x8004 : Word) ||| (x.setWidth 16 <<< 8) ||| (y.setWidth 16 <<< 4)

/-- The bytes of an instruction in memory order. -/
def encodeBytes (i : Instr) : List Byte := wordBytes (encode i)

/-! ## The opcode map as match and mask (R56) -/

/-- A row of the opcode map: `w` selects it exactly when `w &&& mask = bits` (R56). -/
structure OpcodeRow where
  mnemonic : String
  bits : Word
  mask : Word
  deriving DecidableEq, Repr

def rowHalt : OpcodeRow := { mnemonic := "HALT", bits := 0x0000, mask := 0xFFFF }
def rowReturn : OpcodeRow := { mnemonic := "RETURN", bits := 0x00EE, mask := 0xFFFF }
def rowCall : OpcodeRow := { mnemonic := "CALL", bits := 0x2000, mask := 0xF000 }
def rowAdd : OpcodeRow := { mnemonic := "ADD", bits := 0x8004, mask := 0xF00F }

/-- The complete opcode map, the rows of opcode_table.json in their order. -/
def opcodeMap : List OpcodeRow := [rowHalt, rowReturn, rowCall, rowAdd]

/-- `(w & mask) == match` (R56). -/
def OpcodeRow.selects (r : OpcodeRow) (w : Word) : Bool := decide (w &&& r.mask = r.bits)

/-- The row of an instruction. -/
def Instr.row : Instr → OpcodeRow
  | .halt => rowHalt
  | .ret => rowReturn
  | .call _ => rowCall
  | .add _ _ => rowAdd

end Sys2Proof
end

