-- ==== Sys2Proof/Machine/State.lean ====
section
/-! DEFINITION. The architectural state of the core: exactly the eight elements of 10_state.md rule R10,
and their reset values (rule R22). -/

namespace Sys2Proof.Machine

/-- `STATUS` (10_state.md R19). -/
inductive RunStatus where
  /-- A STEP fetches and executes one instruction; the reset value. It does not make the core execute
  (70_reset_and_hazards.md R151). -/
  | running
  /-- A HALT has executed. Left only by RESET. -/
  | halted
  /-- A step ended in a fatal condition. Left only by RESET. -/
  | faulted
  deriving DecidableEq, Repr

/-- `CAUSE`: which fatal condition ended the run (10_state.md R20, 60_exceptions.md R120). -/
inductive Cause where
  /-- NONE: no fault since reset. -/
  | noCause
  | outOfBoundsFetch
  | unimplementedOpcode
  | stackOverflow
  | stackUnderflow
  deriving DecidableEq, Repr

/-- The four fatal conditions as they are raised: `UnimplementedOpcode(word)` carries the raw offending
word (60_exceptions.md R120). -/
inductive Condition where
  | outOfBoundsFetch
  | unimplementedOpcode (word : Word)
  | stackOverflow
  | stackUnderflow
  deriving DecidableEq, Repr

/-- `MEM` (10_state.md R21): the bytes that differ from `Config.unlistedByte`, by rising address. The
canonical form is `Memory.wf` (Machine/Ops.lean). -/
abbrev Memory := List Host.Cell

/-- The eight elements of 10_state.md R10. -/
structure State where
  /-- `MEM`, 4096 bytes (R21). -/
  mem : Memory
  /-- `r[0]` to `r[15]`; `r[15]` is also the overflow flag (R11, R12). -/
  regs : Vector Byte 16
  /-- `PC`, the byte address of the next instruction to fetch (R14). -/
  pc : Word
  /-- `STACK[0]` to `STACK[15]`, storage inside the core (R17). -/
  stack : Vector Word 16
  /-- `SP`, the count of occupied entries, 0 to 16 (R18; log entry 1). -/
  sp : Fin 17
  /-- `STATUS` (R19). -/
  status : RunStatus
  /-- `CAUSE` (R20). -/
  cause : Cause
  /-- `CAUSE_WORD` (R20). -/
  causeWord : Word
  deriving DecidableEq, Repr

/-- Stops of the model itself. There is none: every fatal condition of the core is a transition of its
state that the spec describes (60_exceptions.md R125), so it is a next state with `STATUS = FAULTED`, and a
STEP of a stopped core leaves the state as it is (40_step_sequencer.md R76). Log entry 2. -/
inductive Fault where
  deriving DecidableEq, Repr

/-- Instructions without a meaning. -/
inductive Refusal where
  /-- Raised by an arm of `exec` for an instruction that has no meaning yet (safe: the model stops). Every
  instruction of this core has its meaning, so nothing raises it. -/
  | notModelled (mnemonic : String)
  deriving DecidableEq, Repr

/-- The state right after RESET (10_state.md R22, 70_reset_and_hazards.md R150). -/
def State.reset : State :=
  { mem := []
    regs := Vector.replicate 16 0x00
    pc := Config.resetPc
    stack := Vector.replicate 16 0x0000
    sp := 0
    status := .running
    cause := .noCause
    causeWord := 0x0000 }

end Sys2Proof.Machine
end

