-- ==== Sys2Proof/Machine/Ops.lean ====
section
/-! DEFINITION. The named operations on memory, registers, program counter, call stack and run state, the
one operation that takes a fatal condition, and the fetch stage. -/

namespace Sys2Proof.Machine

/-! ## Memory (20_memory.md) -/

/-- The canonical form of a memory: addresses strictly rising and below `MEM_SIZE`, no entry equal to what
an unlisted address reads as. -/
abbrev Memory.wf (m : Memory) : Prop :=
  m.Pairwise (fun p q => p.1 < q.1) ∧ ∀ p ∈ m, p.1 < Config.memSize ∧ p.2 ≠ Config.unlistedByte

/-- `MEM[a]` (R8, R32). No access of the core or the host names an address above 4095. -/
def Memory.byteAt : Memory → Nat → Byte
  | [], _ => Config.unlistedByte
  | (k, b) :: m, a => if k = a then b else Memory.byteAt m a

/-- Lists `v` at `a`, keeping the canonical form. -/
def Memory.insert (m : Memory) (a : Nat) (v : Byte) : Memory :=
  match m with
  | [] => if v = Config.unlistedByte then [] else [(a, v)]
  | (k, b) :: rest =>
    if a < k then if v = Config.unlistedByte then (k, b) :: rest else (a, v) :: (k, b) :: rest
    else if a = k then if v = Config.unlistedByte then rest else (a, v) :: rest
    else (k, b) :: Memory.insert rest a v

/-- `MemWrite(addr, 1, v)` (R32): the address is 12 bits wide, so it always names a cell (R153). Only the
host's load port calls it. -/
def Memory.write (m : Memory) (a : Addr) (v : Byte) : Memory := m.insert a.toNat v

/-- `MemRead(addr, 2)` (R32): two bytes, big-endian (R33). Only the fetch stage calls it, after the bound
check of R35. -/
def Memory.read16 (m : Memory) (a : Nat) : Word := joinBytes (m.byteAt a) (m.byteAt (a + 1))

/-! ## Registers (10_state.md R11: no register is hard-wired, banked or aliased) -/

/-- `r[i]`. -/
def State.getReg (s : State) (i : RegIdx) : Byte := s.regs[i.toNat]'i.isLt

/-- `r[i] <- v`; index 0xF is written like any other (R12). -/
def State.setReg (s : State) (i : RegIdx) (v : Byte) : State :=
  { s with regs := s.regs.set i.toNat v i.isLt }

/-! ## Program counter (10_state.md R14) -/

/-- `PC <- v`. -/
def State.setPc (s : State) (v : Word) : State := { s with pc := v }

/-! ## Call stack (42_call_return.md R95, R96) -/

/-- `Push(v)`: none where its precondition `SP <= 15` fails, that is on a full stack (R95). -/
def State.push (s : State) (v : Word) : Option State :=
  if h : s.sp.val < 16 then
    some { s with stack := s.stack.set s.sp.val v h, sp := ⟨s.sp.val + 1, by omega⟩ }
  else none

/-- `Pop()`: the popped value and the state after it; none where its precondition `SP >= 1` fails, that is
on an empty stack. The entry keeps its value (R96). -/
def State.pop (s : State) : Option (Word × State) :=
  if h : 0 < s.sp.val then
    some (s.stack[s.sp.val - 1]'(by have := s.sp.isLt; omega),
      { s with sp := ⟨s.sp.val - 1, by have := s.sp.isLt; omega⟩ })
  else none

/-! ## Run state -/

/-- `STATUS <- HALTED` (41_halt.md R90). -/
def State.halt (s : State) : State := { s with status := .halted }

/-- What `CAUSE` records of a condition (60_exceptions.md R120). -/
def Condition.cause : Condition → Cause
  | .outOfBoundsFetch => .outOfBoundsFetch
  | .unimplementedOpcode _ => .unimplementedOpcode
  | .stackOverflow => .stackOverflow
  | .stackUnderflow => .stackUnderflow

/-- What `CAUSE_WORD` records of a condition: the word for UnimplementedOpcode, else 0 (R120, R125). -/
def Condition.info : Condition → Word
  | .unimplementedOpcode w => w
  | .outOfBoundsFetch | .stackOverflow | .stackUnderflow => 0x0000

/-- `raise K(info)`: taking a fatal condition (R125). `PC` is not moved: the core has no handler (R127),
and no instruction returns from the condition (R128). -/
def State.raise (s : State) (k : Condition) : State :=
  { s with status := .faulted, cause := k.cause, causeWord := k.info }

/-- The numeric codes of `CAUSE` (R120; they carry no meaning beyond the table, log entry 14). -/
def Cause.code : Cause → Nat
  | .noCause => 0
  | .outOfBoundsFetch => 1
  | .unimplementedOpcode => 2
  | .stackOverflow => 3
  | .stackUnderflow => 4

/-! ## The fetch stage (40_step_sequencer.md R70, R71) -/

/-- The fetch bound check: exactly `PC <= 4094`, in the natural numbers (20_memory.md R35). -/
def fetchOk (pc : Word) : Bool := decide (pc.toNat ≤ Config.lastFetch)

/-- The state after a fetch: `PC` has advanced by 2 (R71). -/
def State.advance (s : State) : State := s.setPc (s.pc + Config.insnBytes)

/-- What a STEP has in hand after its fetch stage. -/
inductive Fetched where
  /-- The step is over, in this state. -/
  | done (t : State)
  /-- This word was fetched, and the state is the post-fetch one. -/
  | word (w : Word) (t : State)

/-- The head of a STEP: nothing happens on a stopped core (R76); the bound check fails with
OutOfBoundsFetch and `PC` not advanced (R71, 60_exceptions.md R121); else the word at `PC` is read and `PC`
advanced (R71). An odd `PC` is fetched from as it stands (20_memory.md R36). -/
def fetchStage (s : State) : Fetched :=
  match s.status with
  | .halted | .faulted => .done s
  | .running =>
    if fetchOk s.pc then .word (s.mem.read16 s.pc.toNat) s.advance
    else .done (s.raise .outOfBoundsFetch)

/-- The dispatcher's answer to a word that selects no instruction (60_exceptions.md R122), on the
post-fetch state. -/
def dispatchIllegal (w : Word) (s : State) : State := s.raise (.unimplementedOpcode w)

/-! ## Placing a word where the next step fetches -/

/-- The two byte writes that place a word, high byte at the lower address (70_reset_and_hazards.md R153);
`a` is at most 4094. -/
def Memory.writeWord (m : Memory) (a : Addr) (w : Word) : Memory :=
  (m.write a (hiByte w)).write (a + 1) (loByte w)

/-- The state, made one whose next STEP fetches: a stopped core is running with no fault recorded, and a
`PC` no fetch can start at is the reset one. A state that fetches as it is stays as it is (log entry
12). -/
def State.readied (s : State) : State :=
  let s := if s.status = .running then s
    else { s with status := .running, cause := .noCause, causeWord := 0x0000 }
  if fetchOk s.pc then s else s.setPc Config.resetPc

/-- The state with a word placed at the address its next STEP fetches from. -/
def State.placeAtFetch (s : State) (w : Word) : State :=
  { s.readied with mem := s.mem.writeWord (s.readied.pc.setWidth 12) w }

end Sys2Proof.Machine
end

