-- ==== Sys2Proof/Machine/Flags.lean ====
section
/-! DEFINITION. The arithmetic law and the one flag computation of the core (43_add.md rules R105, R107). -/

namespace Sys2Proof.Machine

/-- The true sum of two operands, 0 to 510, in 9 bits; no carry-in (R105, R107). -/
def sum9 (a b : Byte) : BitVec 9 := a.setWidth 9 + b.setWidth 9

/-- `s[7:0]`: the sum modulo 256 (R105). -/
def sumByte (a b : Byte) : Byte := (sum9 a b).extractLsb' 0 8

/-- `zext_8(s[8])`: 0x01 if the true sum exceeds 8 bits, else 0x00 (R105, R107). -/
def carryByte (a b : Byte) : Byte := ((sum9 a b).extractLsb' 8 1).setWidth 8

/-- The flag write: `r[0xF]` receives the carry-out (R105). -/
def State.setFlag (s : State) (v : Byte) : State := s.setReg Config.flagIndex v

end Sys2Proof.Machine
end

