-- ==== Sys2Proof/Machine/Operands.lean ====
section
/-! DEFINITION. The operand forms: a register operand (30_encoding.md rule R55) and the address immediate
(rule R54). The core has no other (R55). -/

namespace Sys2Proof.Machine

/-- The value of a register operand: one of the 16 registers, selected directly (R55). -/
def regOperand (i : RegIdx) (s : State) : Byte := s.getReg i

/-- The jump target of the immediate `nnn`: an absolute byte address, `zext_16(nnn)` (R54). -/
def addrOperand (nnn : Addr) : Word := nnn.setWidth 16

end Sys2Proof.Machine
end

