-- ==== Sys2Proof/Machine/Add.lean ====
section
/-! DEFINITION. ADD (43_add.md). -/

namespace Sys2Proof.Machine

/-- ADD, on the post-fetch state: both operands are read before any write; `r[x]` is written first with
the sum, `r[15]` second with the carry, with no special case for index 0xF (R105, R106; log entry 5). -/
def execAdd (x y : RegIdx) (s : State) : Host.Outcome State Fault Refusal :=
  let a := regOperand x s
  let b := regOperand y s
  .next ((s.setReg x (sumByte a b)).setFlag (carryByte a b))

end Sys2Proof.Machine
end

