-- ==== Sys2Proof/Machine/CallReturn.lean ====
section
/-! DEFINITION. CALL and RETURN (42_call_return.md). -/

namespace Sys2Proof.Machine

/-- CALL, on the post-fetch state: a full stack raises StackOverflow before anything is written; else the
post-fetch `PC` is pushed and `PC` is `zext_16(nnn)`, unchecked (R97, R99). -/
def execCall (nnn : Addr) (s : State) : Host.Outcome State Fault Refusal :=
  match s.push s.pc with
  | some t => .next (t.setPc (addrOperand nnn))
  | none => .next (s.raise .stackOverflow)

/-- RETURN, on the post-fetch state: an empty stack raises StackUnderflow before anything is written; else
all 16 bits of the popped entry go to `PC`, unchecked (R98, R100). -/
def execReturn (s : State) : Host.Outcome State Fault Refusal :=
  match s.pop with
  | some (v, t) => .next (t.setPc v)
  | none => .next (s.raise .stackUnderflow)

end Sys2Proof.Machine
end

