-- ==== Sys2Proof/Machine/Halt.lean ====
section
/-! DEFINITION. HALT (41_halt.md). -/

namespace Sys2Proof.Machine

/-- HALT, on the post-fetch state: writes `STATUS` only (R90). It does not look at `SP` (R91). -/
def execHalt (s : State) : Host.Outcome State Fault Refusal := .next s.halt

end Sys2Proof.Machine
end

