-- ==== Sys2Proof/Machine/Step.lean ====
section
/-! DEFINITION. STEP, the one operation that advances the core (40_step_sequencer.md rule R70). -/

namespace Sys2Proof.Machine

/-- STEP: fetch, decode, dispatch and execute, as one transition (R70 to R73). -/
def step (s : State) : Host.Outcome State Fault Refusal :=
  match fetchStage s with
  | .done t => .next t
  | .word w t =>
    match decodeWord w with
    | some i => exec i t
    | none => .next (dispatchIllegal w t)

/-- `s` with the opcode-table word `w` of `nbits` bits placed where `step` fetches its next instruction
(log entry 12). -/
def State.withFetchWord (s : State) (nbits w : Nat) : State := s.placeAtFetch (tableWord nbits w)

end Sys2Proof.Machine
end

