-- ==== Sys2Proof/Machine/Assembly.lean ====
section
/-! DEFINITION. The written form of instructions, 30_encoding.md rule R61: what a line of a program stands
for. The core does not execute this; the spec fixes it so that programs can be written down (00_scope.md
rule R4 (c)). Lines are lists of characters. -/

namespace Sys2Proof

/-- The instruction a written form stands for, where its operands are in range (R61). -/
def Written.toInstr (u : Written) : Option Instr :=
  if u.wf then
    match u with
    | .halt => some .halt
    | .ret => some .ret
    | .call nnn => some (.call (BitVec.ofNat 12 nnn))
    | .add x y => some (.add (BitVec.ofNat 4 x) (BitVec.ofNat 4 y))
  else none

/-- The word of a written form as R61's table computes it, in the natural numbers. -/
def Written.word : Written → Nat
  | .halt => 0x0000
  | .ret => 0x00EE
  | .call nnn => 0x2000 + nnn
  | .add x y => 0x8004 + x <<< 8 + y <<< 4

/-! ## Numbers -/

/-- The value of a decimal digit. -/
def decDigit (ch : Char) : Option Nat :=
  if '0' ≤ ch ∧ ch ≤ '9' then some (ch.toNat - '0'.toNat) else none

/-- The value of a hexadecimal digit, in either case (log entry 15). -/
def hexDigit (ch : Char) : Option Nat :=
  if '0' ≤ ch ∧ ch ≤ '9' then some (ch.toNat - '0'.toNat)
  else if 'A' ≤ ch ∧ ch ≤ 'F' then some (ch.toNat - 'A'.toNat + 10)
  else if 'a' ≤ ch ∧ ch ≤ 'f' then some (ch.toNat - 'a'.toNat + 10)
  else none

/-- The value of digits read from the left, after `acc`. -/
def digitsFrom (base : Nat) (digit : Char → Option Nat) (acc : Nat) : List Char → Option Nat
  | [] => some acc
  | ch :: rest =>
    match digit ch with
    | some n => digitsFrom base digit (acc * base + n) rest
    | none => none

/-- A number, in hexadecimal as `0x100` or in decimal (R61). -/
def readNumber : List Char → Option Nat
  | [] => none
  | ['0', 'x'] => none
  | '0' :: 'x' :: digits => digitsFrom 16 hexDigit 0 digits
  | digits => digitsFrom 10 decDigit 0 digits

/-! ## Register names -/

/-- The register names and their numbers: `r0` to `r15`, and `rA` to `rF` for `r10` to `r15` (R61). -/
def registerNames : List (List Char × Nat) :=
  [(['r', '0'], 0), (['r', '1'], 1), (['r', '2'], 2), (['r', '3'], 3), (['r', '4'], 4), (['r', '5'], 5),
   (['r', '6'], 6), (['r', '7'], 7), (['r', '8'], 8), (['r', '9'], 9), (['r', 'A'], 10), (['r', 'B'], 11),
   (['r', 'C'], 12), (['r', 'D'], 13), (['r', 'E'], 14), (['r', 'F'], 15)] ++
  [(['r', '1', '0'], 10), (['r', '1', '1'], 11), (['r', '1', '2'], 12), (['r', '1', '3'], 13),
   (['r', '1', '4'], 14), (['r', '1', '5'], 15)]

/-- The number of a register name. -/
def readRegister (name : List Char) : Option Nat := registerNames.lookup name

/-- The characters before the first comma and those after it. -/
def splitComma : List Char → Option (List Char × List Char)
  | [] => none
  | ',' :: rest => some ([], rest)
  | ch :: rest => (splitComma rest).map fun p => (ch :: p.1, p.2)

/-! ## Lines -/

/-- The written instruction of a line of R61's syntax. -/
def readWritten : List Char → Option Written
  | ['H', 'A', 'L', 'T'] => some .halt
  | ['R', 'E', 'T', 'U', 'R', 'N'] => some .ret
  | 'C' :: 'A' :: 'L' :: 'L' :: ' ' :: number => (readNumber number).map .call
  | 'A' :: 'D' :: 'D' :: ' ' :: operands =>
    match splitComma operands with
    | some (x, y) =>
      match readRegister x, readRegister y with
      | some x, some y => some (.add x y)
      | _, _ => none
    | none => none
  | _ => none

/-- The instruction of a line (R61). -/
def assemble (line : List Char) : Option Instr :=
  match readWritten line with
  | some u => u.toInstr
  | none => none

/-- The hexadecimal digit of a nibble. -/
def hexChar (n : Nibble) : Char :=
  if n.toNat < 10 then Char.ofNat ('0'.toNat + n.toNat) else Char.ofNat ('A'.toNat + (n.toNat - 10))

/-- The short name of a register, `r0` to `r9` and `rA` to `rF` (R61). -/
def registerName (i : RegIdx) : List Char := ['r', hexChar i]

/-- A line for an instruction, with a CALL target as three hexadecimal digits (R61). -/
def disassemble : Instr → List Char
  | .halt => ['H', 'A', 'L', 'T']
  | .ret => ['R', 'E', 'T', 'U', 'R', 'N']
  | .call nnn =>
    ['C', 'A', 'L', 'L', ' ', '0', 'x', hexChar (nnn.extractLsb' 8 4), hexChar (nnn.extractLsb' 4 4),
      hexChar (nnn.extractLsb' 0 4)]
  | .add x y => ['A', 'D', 'D', ' '] ++ registerName x ++ [','] ++ registerName y

end Sys2Proof
end

