-- ==== Sys2Proof/Machine/HostPort.lean ====
section
/-! DEFINITION. The host's side of the core: the transactions and phases of 70_reset_and_hazards.md rules
R150 to R157, and RUN (40_step_sequencer.md rule R77). -/

namespace Sys2Proof.Machine

/-! ## Effects of the host's writes on the state -/

/-- `HOST_WRITE_MEM(a, v)`: `MEM[a] <- v` and nothing else (R153). -/
def State.writeMem (s : State) (a : Addr) (v : Byte) : State := { s with mem := s.mem.write a v }

/-- `HOST_WRITE_PC(v)`: `PC <- v`, unchecked, and nothing else (R154). -/
def State.writePc (s : State) (v : Word) : State := s.setPc v

/-- `HOST_WRITE_REG(i, v)`: `r[i] <- v` and nothing else, index 15 as plain storage (R155). -/
def State.writeReg (s : State) (i : RegIdx) (v : Byte) : State := s.setReg i v

/-! ## RUN -/

/-- RUN, under fuel: STEPs while `STATUS == RUNNING` (R77). None where the run has not ended within that
many STEPs: the spec gives RUN no budget and does not say that every run ends (log entry 13). -/
def runFuel : Nat → State → Option State
  | 0, s => if s.status = .running then none else some s
  | n + 1, s =>
    if s.status = .running then
      match step s with
      | .next t => runFuel n t
      | .fault _ | .refused _ => none
    else some s

/-! ## Sessions (R152) -/

/-- The two phases between a RESET and the next (R152). -/
inductive Phase where
  /-- Since a RESET and before the first STEP or RUN after it: the host may write. -/
  | preRun
  /-- From the first STEP or RUN on. -/
  | started
  deriving DecidableEq, Repr

/-- The core and the phase its host is in. The phase is the host's protocol and no state of the core
(10_state.md R10). -/
structure Session where
  core : State
  phase : Phase
  deriving DecidableEq, Repr

/-- The session a RESET begins (R150, R152). -/
def Session.fresh : Session := { core := State.reset, phase := .preRun }

/-- The host's transactions that may change the core (R152). `run` carries the number of STEPs the RUN is
given to end in. -/
inductive Transaction where
  | reset
  | writeMem (a : Addr) (v : Byte)
  | writePc (v : Word)
  | writeReg (i : RegIdx) (v : Byte)
  | step
  | run (fuel : Nat)
  deriving DecidableEq, Repr

/-- A write of the host: its effect in the pre-run phase, no move afterwards (R152; log entry 9). -/
def Session.preRunWrite (c : Session) (effect : State) : Option Session :=
  match c.phase with
  | .preRun => some { c with core := effect }
  | .started => none

/-- The session after a transaction; none where the host has no such move (R152), or where a RUN has not
ended within its fuel. -/
def Session.transact (c : Session) : Transaction → Option Session
  | .reset => some Session.fresh
  | .writeMem a v => c.preRunWrite (c.core.writeMem a v)
  | .writePc v => c.preRunWrite (c.core.writePc v)
  | .writeReg i v => c.preRunWrite (c.core.writeReg i v)
  | .step =>
    match Machine.step c.core with
    | .next t => some { core := t, phase := .started }
    | .fault _ | .refused _ => none
  | .run n => (runFuel n c.core).map fun t => { core := t, phase := .started }

/-- Transactions in order. -/
def Session.perform : Session → List Transaction → Option Session
  | c, [] => some c
  | c, t :: ts =>
    match c.transact t with
    | some c' => c'.perform ts
    | none => none

/-- The host writes that place the instruction word `w` at `a`, at most 4094: high byte at the lower
address (R153). -/
def wordWrites (a : Addr) (w : Word) : List Transaction :=
  [.writeMem a (hiByte w), .writeMem (a + 1) (loByte w)]

/-! ## Host reads (R156, R157) -/

/-- All that the host may read between transactions: everything but `STACK` (R156, R157). -/
structure HostView where
  regs : Vector Byte 16
  mem : Memory
  sp : Fin 17
  pc : Word
  status : RunStatus
  cause : Cause
  causeWord : Word
  deriving DecidableEq, Repr

/-- What the host reads, without side effect (R156). -/
def State.hostView (s : State) : HostView :=
  { regs := s.regs, mem := s.mem, sp := s.sp, pc := s.pc, status := s.status, cause := s.cause,
    causeWord := s.causeWord }

/-- `HOST_READ` of a register (R156). -/
def HostView.reg (v : HostView) (i : RegIdx) : Byte := v.regs[i.toNat]'i.isLt

/-- `HOST_READ` of a memory byte (R156). -/
def HostView.byte (v : HostView) (a : Addr) : Byte := v.mem.byteAt a.toNat

end Sys2Proof.Machine
end

