-- ==== Sys2Proof/Safety.lean ====
section
/-! DEFINITION. The terms claims use: how a run ended (40_step_sequencer.md rule R79), the invariants of
reachable states (10_state.md rule R26), reachability, and the words at the program counter. -/

namespace Sys2Proof.Machine

/-! ## The word a step fetches -/

/-- The word at `PC` (20_memory.md R33). -/
def State.wordAtPc (s : State) : Word := s.mem.read16 s.pc.toNat

/-- A STEP of this state fetches: it is running and passes the bound check (R70, R71). -/
abbrev State.Fetches (s : State) : Prop := s.status = .running ∧ fetchOk s.pc = true

/-! ## How a run ended (R79) -/

/-- The run has ended. -/
abbrev State.RunEnded (s : State) : Prop := s.status ≠ .running

/-- The run ended normally, by a HALT. -/
abbrev State.EndedNormally (s : State) : Prop := s.status = .halted

/-- The run ended in a fault. A claim about a good run takes the contrary as its premise. -/
abbrev State.EndedInFault (s : State) : Prop := s.status = .faulted

/-! ## Invariants (10_state.md R26) -/

/-- R26 (b) and (c): a fault is recorded exactly in FAULTED, a word exactly for UnimplementedOpcode. -/
abbrev State.FaultRecordOk (s : State) : Prop :=
  (s.status = .faulted ↔ s.cause ≠ .noCause) ∧ (s.causeWord ≠ 0 ↔ s.cause = .unimplementedOpcode)

/-- R26 (d), on the stack: every occupied entry is at most 4096. -/
abbrev State.StackBounded (s : State) : Prop :=
  ∀ i : Fin 16, i.val < s.sp.val → (s.stack[i]).toNat ≤ 4096

/-- The invariant of the core: memory in canonical form, the fault record as R26 (b) and (c), occupied
stack entries as R26 (d). R26 (a) is the type of `SP`. -/
abbrev State.Inv (s : State) : Prop := s.mem.wf ∧ s.FaultRecordOk ∧ s.StackBounded

/-- What programs and hosts are asked to keep (70_reset_and_hazards.md R158 item 2): `PC` and the saved
return addresses are even. The core does not check it. -/
abbrev State.EvenAligned (s : State) : Prop :=
  s.pc.toNat % 2 = 0 ∧ ∀ i : Fin 16, i.val < s.sp.val → (s.stack[i]).toNat % 2 = 0

/-- Two states that differ at most in stack entries at `SP` and above, which are not occupied
(10_state.md R17). -/
abbrev State.AgreeButUnoccupied (s t : State) : Prop :=
  { s with stack := t.stack } = t ∧ ∀ i : Fin 16, i.val < s.sp.val → s.stack[i] = t.stack[i]

/-! ## Reachability -/

/-- The states a session reaches from a RESET. The flag says whether a fetch has succeeded since the last
RESET: a RUN fetches exactly when its first STEP does. -/
inductive Reachable : Bool → Session → Prop where
  | fresh : Reachable false Session.fresh
  | reset {b : Bool} {c c' : Session} : Reachable b c → c.transact .reset = some c' → Reachable false c'
  | write {b : Bool} {c c' : Session} {t : Transaction} : Reachable b c →
      t ∉ [Transaction.reset, .step] → (∀ n, t ≠ .run n) → c.transact t = some c' → Reachable b c'
  | step {b : Bool} {c c' : Session} : Reachable b c → c.transact .step = some c' →
      Reachable (b || decide c.core.Fetches) c'
  | run {b : Bool} {c c' : Session} {n : Nat} : Reachable b c → c.transact (.run n) = some c' →
      Reachable (b || decide c.core.Fetches) c'

/-! ## Counting the legal words (30_encoding.md R58) -/

/-- The number of legal words of an opcode class (R58). -/
def legalInClass (c : Nat) : Nat :=
  (List.range 4096).countP fun k => (decodeWord (BitVec.ofNat 16 (c * 4096 + k))).isSome

/-- The number of illegal words of an opcode class (R58). -/
def illegalInClass (c : Nat) : Nat :=
  (List.range 4096).countP fun k => (decodeWord (BitVec.ofNat 16 (c * 4096 + k))).isNone

/-! ## Pushes and pops in sequence -/

/-- Pushes in order; none if one finds the stack full. -/
def State.pushAll (s : State) : List Word → Option State
  | [] => some s
  | v :: vs =>
    match s.push v with
    | some t => t.pushAll vs
    | none => none

/-- `n` pops, the values in the order popped; none if one finds the stack empty. -/
def State.popAll (s : State) : Nat → Option (List Word × State)
  | 0 => some ([], s)
  | n + 1 =>
    match s.pop with
    | some (v, t) => (t.popAll n).map fun p => (v :: p.1, p.2)
    | none => none

/-! ## CALLs and RETURNs in sequence -/

/-- Nested CALLs, each from a call site of its own (its post-fetch `PC`, wherever the callee went) to its
own target; none if one does not complete. -/
def State.callAll (s : State) : List (Word × Addr) → Option State
  | [] => some s
  | (site, nnn) :: rest =>
    match exec (.call nnn) (s.setPc site) with
    | .next t => if t.status = .faulted then none else t.callAll rest
    | .fault _ | .refused _ => none

/-- `n` RETURNs, the addresses they go to in order; none if one does not complete. -/
def State.returnAll (s : State) : Nat → Option (List Word × State)
  | 0 => some ([], s)
  | n + 1 =>
    match exec .ret s with
    | .next t => if t.status = .faulted then none else (t.returnAll n).map fun p => (t.pc :: p.1, p.2)
    | .fault _ | .refused _ => none

/-- `n` STEPs in a row; none if one does not answer a next state. -/
def stepTimes : Nat → State → Option State
  | 0, s => some s
  | n + 1, s =>
    match step s with
    | .next t => stepTimes n t
    | .fault _ | .refused _ => none

end Sys2Proof.Machine
end

