-- ==== Sys2Proof/Certificates/Slice0/Obligations.lean ====
section
/-! DEFINITION. The statements for the provers. A docstring names the rule a statement formalises and,
where it rests on a decision the spec marks as its own (92_eei_decisions.md) or on a log entry, that
decision or entry. -/

open Sys2Proof Sys2Proof.Machine

/-! ## Encoding (30_encoding.md) -/

/-- R51: the five fields of a word, as the shift and mask extractions, as the digits of the word, and as
the nibbles of the two bytes fetched (`b0` from the lower address). -/
def Obligations.FieldsAreTheNibblesOfTheWord : Prop :=
  (∀ w : Word,
    (decodeFields w).c.setWidth 16 = (w >>> 12) &&& 0xF ∧
    (decodeFields w).x.setWidth 16 = (w >>> 8) &&& 0xF ∧
    (decodeFields w).y.setWidth 16 = (w >>> 4) &&& 0xF ∧
    (decodeFields w).d.setWidth 16 = w &&& 0xF ∧
    (decodeFields w).nnn.setWidth 16 = w &&& 0xFFF ∧
    (decodeFields w).nnn.toNat = (decodeFields w).x.toNat * 256 + (decodeFields w).y.toNat * 16 +
      (decodeFields w).d.toNat ∧
    w.toNat = (decodeFields w).c.toNat * 4096 + (decodeFields w).nnn.toNat) ∧
  ∀ b0 b1 : Byte,
    (decodeFields (joinBytes b0 b1)).c = b0.extractLsb' 4 4 ∧
    (decodeFields (joinBytes b0 b1)).x = b0.extractLsb' 0 4 ∧
    (decodeFields (joinBytes b0 b1)).y = b1.extractLsb' 4 4 ∧
    (decodeFields (joinBytes b0 b1)).d = b1.extractLsb' 0 4

/-- R56: for each row of the opcode map, the pattern on the decoded tuple, the match under the mask, and
the instruction selected, with its operands; and nothing else is an instruction. -/
def Obligations.OpcodeMapSelectsByPatternAndMask : Prop :=
  ∀ w : Word,
    (((decodeFields w).c = 0 ∧ (decodeFields w).x = 0 ∧ (decodeFields w).y = 0 ∧ (decodeFields w).d = 0) ↔
      w &&& 0xFFFF = 0x0000) ∧
    (decodeWord w = some .halt ↔ w &&& 0xFFFF = 0x0000) ∧
    (((decodeFields w).c = 0 ∧ (decodeFields w).x = 0 ∧ (decodeFields w).y = 0xE ∧
      (decodeFields w).d = 0xE) ↔ w &&& 0xFFFF = 0x00EE) ∧
    (decodeWord w = some .ret ↔ w &&& 0xFFFF = 0x00EE) ∧
    ((decodeFields w).c = 0x2 ↔ w &&& 0xF000 = 0x2000) ∧
    (decodeWord w = some (.call (decodeFields w).nnn) ↔ w &&& 0xF000 = 0x2000) ∧
    (((decodeFields w).c = 0x8 ∧ (decodeFields w).d = 0x4) ↔ w &&& 0xF00F = 0x8004) ∧
    (decodeWord w = some (.add (decodeFields w).x (decodeFields w).y) ↔ w &&& 0xF00F = 0x8004) ∧
    (decodeWord w = none ↔ w &&& 0xFFFF ≠ 0x0000 ∧ w &&& 0xFFFF ≠ 0x00EE ∧ w &&& 0xF000 ≠ 0x2000 ∧
      w &&& 0xF00F ≠ 0x8004)

/-- R57 (derived in the spec): no word selects two rows of the opcode map, so the order in which a
dispatcher tries them does not matter. -/
def Obligations.OpcodeRowsAreDisjoint : Prop :=
  opcodeMap.Pairwise fun p q => ∀ w : Word, p.selects w = true → q.selects w = false

/-- R58, its table of counts: the legal and the illegal words of each class, and of all sixteen. -/
def Obligations.LegalWordsPerClass : Prop :=
  legalInClass 0x0 = 2 ∧ illegalInClass 0x0 = 4094 ∧
  legalInClass 0x2 = 4096 ∧ illegalInClass 0x2 = 0 ∧
  legalInClass 0x8 = 256 ∧ illegalInClass 0x8 = 3840 ∧
  (∀ c < 16, c ≠ 0x0 → c ≠ 0x2 → c ≠ 0x8 → legalInClass c = 0 ∧ illegalInClass c = 4096) ∧
  ((List.range 16).map legalInClass).sum = 4354 ∧ ((List.range 16).map illegalInClass).sum = 61182 ∧
  decodeWord 0x00E0 = none ∧ decodeWord 0x0EE0 = none

/-- The encoder and the decoder agree both ways, on words and on bytes: every instruction with every
operand value comes back, every word and every two bytes that decode are the encoding of what they decode
to, and decoding takes exactly two bytes (R50, R53 to R56). -/
def Obligations.DecodeAndEncodeAgree : Prop :=
  (∀ i : Instr, decodeWord (encode i) = some i) ∧
  (∀ (w : Word) (i : Instr), decodeWord w = some i → encode i = w) ∧
  (∀ (i : Instr) (rest : List Byte), decode (encodeBytes i ++ rest) = .ok (i, rest)) ∧
  (∀ (bytes : List Byte) (i : Instr) (rest : List Byte),
    decode bytes = .ok (i, rest) → bytes = encodeBytes i ++ rest)

/-- The decoder rejects by name: fewer than two bytes are too short (R50), and two bytes whose word is no
instruction are rejected with that word (R58). -/
def Obligations.DecoderRejectsByName : Prop :=
  (∀ bytes : List Byte, decode bytes = .error .tooShort ↔ bytes.length < 2) ∧
  (∀ (b0 b1 : Byte) (rest : List Byte), decodeWord (joinBytes b0 b1) = none ↔
    decode (b0 :: b1 :: rest) = .error (.unimplementedOpcode (joinBytes b0 b1)))

/-- Sanity: words written out from the opcode map decode to the instruction they stand for, and the
nearest other words to none (95_test_vectors.md V-DEC1 to V-DEC11). -/
def Obligations.WordsOfTheSpecDecode : Prop :=
  decodeWord 0b0000000000000000 = some .halt ∧
  decodeWord 0b0000000011101110 = some .ret ∧
  decodeWord 0b0010000100000000 = some (.call 0x100) ∧
  decodeWord 0b0010111111111111 = some (.call 0xFFF) ∧
  decodeWord 0b1000000000010100 = some (.add 0x0 0x1) ∧
  decodeWord 0b1000111111110100 = some (.add 0xF 0xF) ∧
  decodeWord 0b1000101010110100 = some (.add 0xA 0xB) ∧
  decodeWord 0x1234 = none ∧ decodeWord 0xFFFF = none ∧ decodeWord 0x00E0 = none ∧ decodeWord 0x8015 = none

/-- R61 (92_eei_decisions.md D18): a written form with its operands in range stands for the instruction
whose word is `0x0000`, `0x00EE`, `0x2000 + nnn` or `0x8004 + (X << 8) + (Y << 4)`; one with an operand out
of range stands for none. -/
def Obligations.WrittenFormsHaveTheirWords : Prop :=
  (∀ u : Written, u.wf = true → ∃ i, u.toInstr = some i ∧ (encode i).toNat = u.word) ∧
  (∀ nnn : Nat, 4095 < nnn → (Written.call nnn).toInstr = none) ∧
  (∀ x y : Nat, 15 < x ∨ 15 < y → (Written.add x y).toInstr = none)

/-- R61 (92_eei_decisions.md D18, log entry 15): the line written for an instruction reads back as that
instruction. -/
def Obligations.AssemblyLinesReadBack : Prop := ∀ i : Instr, assemble (disassemble i) = some i

/-! ## The step (20_memory.md, 40_step_sequencer.md) -/

/-- R33: the word fetched is `(byte0 << 8) | byte1`, so the byte at the lower address gives `c` and `x` and
the other `y` and `d`. That it is so for an odd `PC` too is R36, by 92_eei_decisions.md D1, the spec's own
decision (log entry 6). -/
def Obligations.FetchIsBigEndian : Prop :=
  ∀ s : State, s.status = .running → s.pc.toNat ≤ 4094 →
    ∃ w : Word, fetchStage s = .word w s.advance ∧
      w = ((s.mem.byteAt s.pc.toNat).setWidth 16 <<< 8) ||| (s.mem.byteAt (s.pc.toNat + 1)).setWidth 16 ∧
      w.toNat = (s.mem.byteAt s.pc.toNat).toNat * 256 + (s.mem.byteAt (s.pc.toNat + 1)).toNat ∧
      (decodeFields w).c = (s.mem.byteAt s.pc.toNat).extractLsb' 4 4 ∧
      (decodeFields w).x = (s.mem.byteAt s.pc.toNat).extractLsb' 0 4 ∧
      (decodeFields w).y = (s.mem.byteAt (s.pc.toNat + 1)).extractLsb' 4 4 ∧
      (decodeFields w).d = (s.mem.byteAt (s.pc.toNat + 1)).extractLsb' 0 4

/-- The fetch stage advances `PC` by 2 without wrapping and changes nothing else (R71, R16). -/
def Obligations.FetchAdvancesPcByTwo : Prop :=
  ∀ s : State, s.status = .running → s.pc.toNat ≤ 4094 →
    ∃ (w : Word) (t : State), fetchStage s = .word w t ∧ t = { s with pc := s.pc + 2 } ∧
      t.pc.toNat = s.pc.toNat + 2 ∧ t.pc.toNat ≤ 4096

/-- A step runs the decoded instruction: where the two bytes at `PC` decode to `i`, the step is `exec i` on
the post-fetch state (R70, R71, R73). -/
def Obligations.StepRunsTheDecodedInstruction : Prop :=
  ∀ (s : State) (i : Instr), s.status = .running → s.pc.toNat ≤ 4094 → i.wf = true →
    decode [s.mem.byteAt s.pc.toNat, s.mem.byteAt (s.pc.toNat + 1)] = .ok (i, []) →
    step s = exec i { s with pc := s.pc + 2 }

/-- R35, R121 (92_eei_decisions.md D2 to D4, D9): a fetch that would reach past address 4095, `PC = 0xFFFF`
included, ends the step in OutOfBoundsFetch with `PC` not advanced and nothing else changed. -/
def Obligations.FetchPastMemoryFaults : Prop :=
  ∀ s : State, s.status = .running → 4094 < s.pc.toNat →
    step s = .next { s with status := .faulted, cause := .outOfBoundsFetch, causeWord := 0 }

/-- R122 (92_eei_decisions.md D2 to D4): a fetched word that matches none of the four rows ends the step in
UnimplementedOpcode, recording the word, with `PC` advanced and nothing else changed. -/
def Obligations.IllegalWordFaults : Prop :=
  ∀ s : State, s.status = .running → s.pc.toNat ≤ 4094 →
    s.wordAtPc ≠ 0x0000 → s.wordAtPc ≠ 0x00EE → s.wordAtPc &&& 0xF000 ≠ 0x2000 →
    s.wordAtPc &&& 0xF00F ≠ 0x8004 →
    step s = .next { s with pc := s.pc + 2, status := .faulted, cause := .unimplementedOpcode,
                            causeWord := s.wordAtPc }

/-- R76 (92_eei_decisions.md D5): a STEP or a RUN of a stopped core changes nothing. -/
def Obligations.StoppedCoreIsLeftAsItIs : Prop :=
  ∀ s : State, s.status ≠ .running → step s = .next s ∧ ∀ n : Nat, runFuel n s = some s

/-- R74, R75, R120: a step of a running core always answers a next state, and which way it ends is decided
by the bound check, the fetched word and `SP`, each condition exactly where the table says. The premise is
R26 (b) and (c), an invariant (92_eei_decisions.md D3, D4). -/
def Obligations.StepEndsInExactlyOneWay : Prop :=
  ∀ s : State, s.status = .running → s.FaultRecordOk → ∃ t : State, step s = .next t ∧
    (t.cause = .outOfBoundsFetch ↔ 4094 < s.pc.toNat) ∧
    (t.cause = .unimplementedOpcode ↔ s.pc.toNat ≤ 4094 ∧ decodeWord s.wordAtPc = none) ∧
    (t.cause = .stackOverflow ↔
      s.pc.toNat ≤ 4094 ∧ s.sp = 16 ∧ ∃ nnn, decodeWord s.wordAtPc = some (.call nnn)) ∧
    (t.cause = .stackUnderflow ↔ s.pc.toNat ≤ 4094 ∧ s.sp = 0 ∧ decodeWord s.wordAtPc = some .ret) ∧
    (t.status = .halted ↔ s.pc.toNat ≤ 4094 ∧ decodeWord s.wordAtPc = some .halt) ∧
    (t.status = .running ↔ s.pc.toNat ≤ 4094 ∧
      ((∃ x y, decodeWord s.wordAtPc = some (.add x y)) ∨
       (s.sp ≠ 16 ∧ ∃ nnn, decodeWord s.wordAtPc = some (.call nnn)) ∨
       (s.sp ≠ 0 ∧ decodeWord s.wordAtPc = some .ret))) ∧
    (t.status = .faulted ↔ t.cause ≠ .noCause)

/-- R125, R126 (92_eei_decisions.md D2 to D4): a fault applies none of the instruction's effects, and the
address of the faulting instruction can be recovered from `PC`. -/
def Obligations.FaultsArePrecise : Prop :=
  ∀ s t : State, s.status = .running → step s = .next t → t.EndedInFault →
    t.mem = s.mem ∧ t.regs = s.regs ∧ t.stack = s.stack ∧ t.sp = s.sp ∧ t.cause ≠ .noCause ∧
    (t.cause = .outOfBoundsFetch → t.pc = s.pc) ∧
    (t.cause ≠ .outOfBoundsFetch → t.pc = s.pc + 2 ∧ t.pc.toNat = s.pc.toNat + 2) ∧
    t.causeWord = (if t.cause = .unimplementedOpcode then s.wordAtPc else 0)

/-- The numeric codes of `CAUSE` (R120; 92_eei_decisions.md D4: the codes are the spec's own choice). -/
def Obligations.CauseCodesFollowTheTable : Prop :=
  Cause.noCause.code = 0 ∧ Cause.outOfBoundsFetch.code = 1 ∧ Cause.unimplementedOpcode.code = 2 ∧
  Cause.stackOverflow.code = 3 ∧ Cause.stackUnderflow.code = 4

/-! ## HALT (41_halt.md) -/

/-- R90: HALT is the word 0x0000 alone; its body writes `STATUS` and nothing else; a step that fetches it
leaves `PC` at its address plus 2; and where the fetch fails it is not executed. -/
def Obligations.HaltStopsTheCore : Prop :=
  (∀ w : Word, decodeWord w = some .halt ↔ w = 0x0000) ∧
  (∀ s : State, exec .halt s = .next { s with status := .halted }) ∧
  (∀ s : State, s.status = .running → s.pc.toNat ≤ 4094 →
    s.mem.byteAt s.pc.toNat = 0x00 → s.mem.byteAt (s.pc.toNat + 1) = 0x00 →
    step s = .next { s with pc := s.pc + 2, status := .halted }) ∧
  (∀ s t : State, s.status = .running → 4094 < s.pc.toNat → step s = .next t → t.status ≠ .halted)

/-- Memory the host did not load decodes as HALT, and a reset core run with nothing loaded halts in one
step with `PC = 0x0002` (R91 (c), R161, derived in the spec). -/
def Obligations.UnloadedMemoryHalts : Prop :=
  (∀ s : State, s.status = .running → s.pc.toNat ≤ 4094 →
    (∀ p ∈ s.mem, p.1 ≠ s.pc.toNat ∧ p.1 ≠ s.pc.toNat + 1) →
    step s = .next { s with pc := s.pc + 2, status := .halted }) ∧
  runFuel 1 State.reset = some { State.reset with pc := 0x0002, status := .halted }

/-! ## CALL and RETURN (42_call_return.md) -/

/-- R97 with R95 (92_eei_decisions.md D7: a push writes entry `SP`): on a stack that is not full CALL
completes for every `nnn`, odd ones included; `STACK[SP]` receives the post-fetch `PC`, `SP` counts one
more, `PC` is `nnn` zero-extended, and nothing else changes. -/
def Obligations.CallPushesAndJumps : Prop :=
  (∀ (w : Word) (nnn : Addr), decodeWord w = some (.call nnn) ↔ w.toNat = 0x2000 + nnn.toNat) ∧
  ∀ (nnn : Addr) (s : State) (h : s.sp.val < 16),
    exec (.call nnn) s = .next { s with stack := s.stack.set s.sp.val s.pc h,
                                        sp := ⟨s.sp.val + 1, by omega⟩,
                                        pc := BitVec.ofNat 16 nnn.toNat }

/-- R123 (92_eei_decisions.md D2 to D4): CALL on a full stack raises StackOverflow; neither the push nor
the jump is made, and `PC` keeps the post-fetch value. -/
def Obligations.CallOnFullStackFaults : Prop :=
  ∀ (nnn : Addr) (s : State), s.sp = 16 →
    exec (.call nnn) s = .next { s with status := .faulted, cause := .stackOverflow, causeWord := 0 }

/-- R98 with R96 (92_eei_decisions.md D7: a pop returns entry `SP - 1` and leaves it): on a stack that is
not empty RETURN completes; `PC` receives all 16 bits of the last occupied entry, `SP` counts one less,
and nothing else changes, `STACK` included. -/
def Obligations.ReturnPopsIntoPc : Prop :=
  (∀ w : Word, decodeWord w = some .ret ↔ w = 0x00EE) ∧
  ∀ (s : State) (n : Nat) (h : s.sp.val = n + 1) (hn : n < 16),
    exec .ret s = .next { s with pc := s.stack[n], sp := ⟨n, by omega⟩ }

/-- R124 (92_eei_decisions.md D2 to D4): RETURN on an empty stack raises StackUnderflow; the pop is not
made and `PC` keeps the post-fetch value. -/
def Obligations.ReturnOnEmptyStackFaults : Prop :=
  ∀ s : State, s.sp = 0 →
    exec .ret s = .next { s with status := .faulted, cause := .stackUnderflow, causeWord := 0 }

/-- R101, R100 (c) and (d) (92_eei_decisions.md D7): after a CALL that completes, a RETURN completes that
finds `SP` as the CALL left it and the one entry the CALL wrote unchanged, whatever the callee left in the
other entries (its own calls and returns among them); it goes to the address that followed the CALL, in
full 16 bits, and restores `SP`. -/
def Obligations.ReturnComesBackAfterTheCall : Prop :=
  ∀ (nnn : Addr) (s t u : State), s.sp ≠ 16 → exec (.call nnn) s = .next t →
    (∀ k : Fin 16, k.val = s.sp.val → u.stack[k] = t.stack[k]) → u.sp = t.sp →
    ∃ v : State, exec .ret u = .next v ∧ v.pc = s.pc ∧ v.sp = s.sp ∧ v.stack = u.stack ∧
      v.regs = u.regs ∧ v.mem = u.mem ∧ v.status = u.status

/-- R95, R96 (92_eei_decisions.md D7), the primitives `Push` and `Pop` alone: pushes succeed exactly while
the stack has room, and the values pushed come back last in, first out, with `SP` back where it was. -/
def Obligations.PushesComeBackLastInFirstOut : Prop :=
  ∀ (s : State) (vs : List Word),
    (s.sp.val + vs.length ≤ 16 → ∃ t u : State, s.pushAll vs = some t ∧
      t.sp.val = s.sp.val + vs.length ∧ t.popAll vs.length = some (vs.reverse, u) ∧ u.sp = s.sp) ∧
    (16 < s.sp.val + vs.length → s.pushAll vs = none)

/-- R99 (e), R100 (d) (92_eei_decisions.md D2 to D4 for the fault, D7 for the entries): nested CALLs up to
the stack's capacity complete, each going to its target, one more raises StackOverflow and changes nothing
else, and as many RETURNs go back to the call sites last in, first out, with `SP`, registers and memory
as before the first CALL. -/
def Obligations.NestedCallsReturnLastInFirstOut : Prop :=
  ∀ (s : State) (calls : List (Word × Addr)), s.status = .running →
    (s.sp.val + calls.length ≤ 16 → ∃ t u : State, s.callAll calls = some t ∧
      t.status = .running ∧ t.sp.val = s.sp.val + calls.length ∧
      (∀ site nnn, calls.getLast? = some (site, nnn) → t.pc.toNat = nnn.toNat) ∧
      t.returnAll calls.length = some ((calls.map Prod.fst).reverse, u) ∧
      u.status = .running ∧ u.sp = s.sp ∧ u.regs = s.regs ∧ u.mem = s.mem ∧
      (s.sp.val + calls.length = 16 → ∀ nnn : Addr, exec (.call nnn) t =
        .next { t with status := .faulted, cause := .stackOverflow, causeWord := 0 })) ∧
    (16 < s.sp.val + calls.length → s.callAll calls = none)

/-- R100 (c) and (d), R101 (92_eei_decisions.md D7), over whole steps: a RETURN goes back behind the CALL it
matches. After a step that executes a CALL, let any number of steps follow, with ADDs and with calls and
returns of their own, in which `SP` never falls below what the CALL left; a RETURN executed where `SP` is
what the CALL left goes to the CALL's address plus 2 and restores `SP`. -/
def Obligations.ReturnMatchesItsCall : Prop :=
  ∀ (n : Nat) (nnn : Addr) (s t u : State), s.Fetches → s.sp ≠ 16 →
    decodeWord s.wordAtPc = some (.call nnn) → step s = .next t → stepTimes n t = some u →
    (∀ j ≤ n, ∀ w : State, stepTimes j t = some w → t.sp ≤ w.sp) →
    u.Fetches → u.sp = t.sp → decodeWord u.wordAtPc = some .ret →
    ∃ v : State, step u = .next v ∧ v.status = .running ∧ v.pc.toNat = s.pc.toNat + 2 ∧ v.sp = s.sp

/-- R102: CALL and RETURN are the only instructions that transfer control, and their targets are not
checked. A step that completes leaves `PC` at `nnn` zero-extended if its instruction is CALL, at the value
popped if it is RETURN, and else at the post-fetch value; and the two complete with any target, odd ones
and ones past memory included. -/
def Obligations.OnlyCallAndReturnTransferControl : Prop :=
  (∀ s t : State, s.Fetches → step s = .next t → t.status ≠ .faulted →
    (∃ nnn, decodeWord s.wordAtPc = some (.call nnn) ∧ t.pc.toNat = nnn.toNat) ∨
    (∃ u, decodeWord s.wordAtPc = some .ret ∧ s.pop = some (t.pc, u)) ∨
    ((∀ nnn, decodeWord s.wordAtPc ≠ some (.call nnn)) ∧ decodeWord s.wordAtPc ≠ some .ret ∧
      t.pc.toNat = s.pc.toNat + 2)) ∧
  (∀ (s : State) (nnn : Addr), s.Fetches → s.sp ≠ 16 → decodeWord s.wordAtPc = some (.call nnn) →
    ∃ t : State, step s = .next t ∧ t.status = .running ∧ t.pc.toNat = nnn.toNat) ∧
  (∀ (s u : State) (v : Word), s.Fetches → s.pop = some (v, u) → decodeWord s.wordAtPc = some .ret →
    ∃ t : State, step s = .next t ∧ t.status = .running ∧ t.pc = v)

/-! ## ADD (43_add.md) -/

/-- R105 (its order of writes for `x = 0xF` is 92_eei_decisions.md D10): ADD completes in every state and
for every `x` and `y`; both operands are read first; `r[x]` receives the sum modulo 256, then `r[0xF]`
the carry, and nothing else changes. -/
def Obligations.AddWritesSumThenCarry : Prop :=
  (∀ (w : Word) (x y : RegIdx), decodeWord w = some (.add x y) ↔
    w.toNat = 0x8004 + x.toNat * 256 + y.toNat * 16) ∧
  ∀ (x y : RegIdx) (s : State),
    let sum : Byte := BitVec.ofNat 8 ((s.getReg x).toNat + (s.getReg y).toNat)
    let carry : Byte := if (s.getReg x).toNat + (s.getReg y).toNat > 255 then 0x01 else 0x00
    exec (.add x y) s = .next { s with regs := (s.regs.set x.toNat sum x.isLt).set 15 carry }

/-- R106 (92_eei_decisions.md D10): the five cases of the aliasing table. -/
def Obligations.AddAliasingTable : Prop :=
  ∀ (x y : RegIdx) (s t : State), exec (.add x y) s = .next t →
    (x ≠ 0xF → y ≠ 0xF → x ≠ y →
      (t.getReg x).toNat = ((s.getReg x).toNat + (s.getReg y).toNat) % 256 ∧
      (t.getReg 0xF).toNat = ((s.getReg x).toNat + (s.getReg y).toNat) / 256 ∧
      t.getReg y = s.getReg y) ∧
    (x = y → x ≠ 0xF →
      (t.getReg x).toNat = (2 * (s.getReg x).toNat) % 256 ∧
      t.getReg 0xF = if (s.getReg x).toNat ≥ 128 then 1 else 0) ∧
    (x ≠ 0xF → y = 0xF →
      (t.getReg x).toNat = ((s.getReg x).toNat + (s.getReg 0xF).toNat) % 256 ∧
      (t.getReg 0xF).toNat = ((s.getReg x).toNat + (s.getReg 0xF).toNat) / 256) ∧
    (x = 0xF → y ≠ 0xF →
      (t.getReg 0xF).toNat = ((s.getReg 0xF).toNat + (s.getReg y).toNat) / 256 ∧
      t.getReg y = s.getReg y) ∧
    (x = 0xF → y = 0xF → t.getReg 0xF = if (s.getReg 0xF).toNat ≥ 128 then 1 else 0) ∧
    (∀ j : RegIdx, j ≠ x → j ≠ 0xF → t.getReg j = s.getReg j)

/-- R107: ADD is unsigned addition modulo 256, the flag is bit 8 of the true sum, and no carry comes in.
The operation's law holds for all operand values; the registers are those of an ADD whose destination is
not the flag register, where the sum is kept. -/
def Obligations.AddIsUnsignedModulo256 : Prop :=
  (∀ a b : Byte, (sumByte a b).toNat = (a.toNat + b.toNat) % 256 ∧
    (carryByte a b = if a.toNat + b.toNat ≥ 256 then 1 else 0)) ∧
  ∀ (x y : RegIdx) (s : State), x ≠ 0xF → ∃ t : State, exec (.add x y) s = .next t ∧
    (t.getReg x).toNat = ((s.getReg x).toNat + (s.getReg y).toNat) % 256 ∧
    (t.getReg 0xF = if (s.getReg x).toNat + (s.getReg y).toNat ≥ 256 then 1 else 0) ∧
    t.status = s.status ∧ t.cause = s.cause

/-- R108 (for the flag register as destination the order of writes is 92_eei_decisions.md D10): `ADD rX,rY`
and `ADD rY,rX` compute the same sum, into their own destinations, and the same flag. -/
def Obligations.AddIsCommutativeInResult : Prop :=
  ∀ (x y : RegIdx) (s t u : State), exec (.add x y) s = .next t → exec (.add y x) s = .next u →
    t.getReg 0xF = u.getReg 0xF ∧ (x ≠ 0xF → y ≠ 0xF → t.getReg x = u.getReg y)

/-- R110, derived in the spec (for `x = 0xF` from 92_eei_decisions.md D10): an ADD leaves the flag register
0 or 1, and from then on every step leaves it so, changing it only by another ADD. -/
def Obligations.FlagRegisterStaysABit : Prop :=
  (∀ (x y : RegIdx) (s t : State), exec (.add x y) s = .next t → (t.getReg 0xF).toNat ≤ 1) ∧
  (∀ s t : State, step s = .next t → (s.getReg 0xF).toNat ≤ 1 → (t.getReg 0xF).toNat ≤ 1) ∧
  (∀ s t : State, step s = .next t → (∀ x y, decodeWord s.wordAtPc ≠ some (.add x y)) →
    t.getReg 0xF = s.getReg 0xF)

/-! ## Frames and what an instruction depends on -/

/-- The frame of all four instructions, where they answer a next state: no byte of memory changes; a
register changes only by ADD, and then only `r[x]` and `r[15]`; a stack entry changes only by a CALL that
completes, and then only entry `SP`; `SP` and `PC` change only by CALL and RETURN that complete; `STATUS`
changes only by HALT and by the two stack conditions, `CAUSE` and `CAUSE_WORD` only by those conditions
(R13, R15, R17, R18, R31, R90, R97, R98, R105; 92_eei_decisions.md D2 to D4 and D7). -/
def Obligations.FrameOfEveryInstruction : Prop :=
  ∀ (i : Instr) (s t : State), exec i s = .next t →
    (∀ a : Nat, t.mem.byteAt a = s.mem.byteAt a) ∧
    (∀ j : RegIdx, (∀ x y, i = .add x y → j ≠ x ∧ j ≠ 0xF) → t.getReg j = s.getReg j) ∧
    (∀ k : Fin 16, (∀ nnn, i = .call nnn → k.val ≠ s.sp.val) → t.stack[k] = s.stack[k]) ∧
    (i = .halt ∨ (∃ x y, i = .add x y) ∨ (i = .ret ∧ s.sp = 0) ∨ ((∃ nnn, i = .call nnn) ∧ s.sp = 16) →
      t.sp = s.sp ∧ t.pc = s.pc) ∧
    (i ≠ .halt → ¬(i = .ret ∧ s.sp = 0) → ¬((∃ nnn, i = .call nnn) ∧ s.sp = 16) → t.status = s.status) ∧
    (¬(i = .ret ∧ s.sp = 0) → ¬((∃ nnn, i = .call nnn) ∧ s.sp = 16) →
      t.cause = s.cause ∧ t.causeWord = s.causeWord)

/-- R31 (b), R115: no instruction reads `MEM` as data and none writes it: on another memory every
instruction does the same and leaves that memory as it is. -/
def Obligations.MemoryIsNoDataOfAnInstruction : Prop :=
  ∀ (i : Instr) (s t : State) (m : Memory), exec i s = .next t →
    t.mem = s.mem ∧ exec i { s with mem := m } = .next { t with mem := m }

/-- R13: HALT, RETURN and CALL neither read nor write a register; what ADD writes depends on no register
but `r[x]` and `r[y]`, and it leaves every other one as it finds it. -/
def Obligations.RegistersBelongToAdd : Prop :=
  (∀ (i : Instr) (s t : State) (r : Vector Byte 16), (∀ x y, i ≠ .add x y) → exec i s = .next t →
    t.regs = s.regs ∧ exec i { s with regs := r } = .next { t with regs := r }) ∧
  (∀ (x y : RegIdx) (s s' t t' : State), s.getReg x = s'.getReg x → s.getReg y = s'.getReg y →
    exec (.add x y) s = .next t → exec (.add x y) s' = .next t' →
    t.getReg x = t'.getReg x ∧ t.getReg 0xF = t'.getReg 0xF ∧
    ∀ j : RegIdx, j ≠ x → j ≠ 0xF → t.getReg j = s.getReg j ∧ t'.getReg j = s'.getReg j)

/-- R17, R157 (92_eei_decisions.md D7, D14): stack entries at `SP` and above are unobservable. Two cores
that differ only there give the host the same view after any number of steps. -/
def Obligations.UnoccupiedStackEntriesAreUnobservable : Prop :=
  ∀ (n : Nat) (s t s' : State), s.AgreeButUnoccupied t → stepTimes n s = some s' →
    ∃ t' : State, stepTimes n t = some t' ∧ s'.AgreeButUnoccupied t' ∧ s'.hostView = t'.hostView

/-! ## RUN (40_step_sequencer.md R77) -/

/-- R77 (92_eei_decisions.md D17, log entry 13): a RUN that ends is a number of STEPs, each of a running
core, up to the first state that is not running. -/
def Obligations.RunIsRepeatedStep : Prop :=
  ∀ (n : Nat) (s t : State), runFuel n s = some t ↔
    ∃ k ≤ n, stepTimes k s = some t ∧ t.RunEnded ∧
      ∀ j < k, ∀ u : State, stepTimes j s = some u → u.status = .running

/-! ## Invariants (10_state.md R26) -/

/-- Every element of the state after RESET, and that RESET may be issued in any state (R22, R150;
92_eei_decisions.md D4, D6, D16 for `CAUSE`, `CAUSE_WORD`, `SP` and the zeroed memory). -/
def Obligations.ResetValues : Prop :=
  (∀ a : Nat, State.reset.mem.byteAt a = 0x00) ∧ (∀ i : RegIdx, State.reset.getReg i = 0x00) ∧
  (∀ k : Fin 16, State.reset.stack[k] = 0x0000) ∧ State.reset.pc = 0x0000 ∧ State.reset.sp = 0 ∧
  State.reset.status = .running ∧ State.reset.cause = .noCause ∧ State.reset.causeWord = 0x0000 ∧
  (∀ c : Session, c.transact .reset = some { core := State.reset, phase := .preRun })

/-- The invariant holds at reset: R22 and R26 (b) to (d) for the fault record (92_eei_decisions.md D3, D4)
and the occupied stack entries; that memory is in canonical form is the model's choice (log entry 19,
DESIGN CHOICE) and no part of R26. -/
def Obligations.ResetMeetsTheInvariant : Prop := State.reset.Inv

/-- Every step keeps the invariant: FAULTED exactly with a cause, a recorded word exactly for
UnimplementedOpcode, occupied stack entries at most 4096 (R26 (b), (c), (d), derived in the spec;
92_eei_decisions.md D3, D4), and memory in canonical form, which is the model's choice (log entry 19,
DESIGN CHOICE) and no part of R26. -/
def Obligations.EveryStepKeepsTheInvariant : Prop :=
  ∀ s t : State, s.Inv → step s = .next t → t.Inv

/-- R26 (d), its bound on `PC`, as a step lemma (derived in the spec): from a state that meets the invariant
and fetches, or whose `PC` is at most 4096 already, a step leads to a state that meets the invariant with
`PC <= 4096`. The invariant's canonical form of memory is the model's choice (log entry 19, DESIGN CHOICE),
its fault record rests on 92_eei_decisions.md D3 and D4, and `PC` after a fault on D2 (log entry 4). -/
def Obligations.EveryStepKeepsThePcBound : Prop :=
  ∀ s t : State, s.Inv → (s.Fetches ∨ s.pc.toNat ≤ 4096) → step s = .next t →
    t.Inv ∧ t.pc.toNat ≤ 4096

/-- R26 (92_eei_decisions.md D2, D3, D4, D6, D8): in every state reachable from reset by the host's
transactions and steps the invariant holds, and once a fetch has succeeded `PC <= 4096`. The invariant's
canonical form of memory is the model's choice (log entry 19, DESIGN CHOICE) and no part of R26. -/
def Obligations.ReachableStatesMeetR26 : Prop :=
  ∀ (b : Bool) (c : Session), Reachable b c →
    c.core.Inv ∧ c.core.sp.val ≤ 16 ∧ (b = true → c.core.pc.toNat ≤ 4096)

/-- R158 item 2, R16 (92_eei_decisions.md D1: the core does not check): while every CALL executed has an
even target, an even `PC` and even return addresses stay even. -/
def Obligations.EvenAlignmentIsKeptByEvenTargets : Prop :=
  ∀ s t : State, s.EvenAligned →
    (∀ nnn : Addr, decodeWord s.wordAtPc = some (.call nnn) → nnn.toNat % 2 = 0) →
    step s = .next t → t.EvenAligned

/-! ## Memory -/

/-- A byte written through the load port is read back and every other address reads as before (R32, R153);
and a write keeps the canonical form, which is the model's choice (log entry 19, DESIGN CHOICE). -/
def Obligations.MemoryWriteReadsBack : Prop :=
  ∀ (m : Memory) (a : Addr) (v : Byte), m.wf →
    (m.write a v).wf ∧ (m.write a v).byteAt a.toNat = v ∧
    ∀ b : Nat, b ≠ a.toNat → (m.write a v).byteAt b = m.byteAt b

/-- The canonical form is one: memories in it that read alike at the 4096 addresses are equal (R21, log
entry 19). -/
def Obligations.MemoriesThatReadAlikeAreEqual : Prop :=
  ∀ m m' : Memory, m.wf → m'.wf → (∀ a < 4096, m.byteAt a = m'.byteAt a) → m = m'

/-! ## The host (70_reset_and_hazards.md) -/

/-- R153: in the pre-run phase `HOST_WRITE_MEM` has its effect on one byte and nothing else, and the two
writes of a word, high byte at the lower address, place it so that a fetch there reads it. -/
def Obligations.HostLoadPortWritesOneByte : Prop :=
  (∀ (c : Session) (a : Addr) (v : Byte), c.phase = .preRun → c.core.mem.wf →
    ∃ m : Memory, c.transact (.writeMem a v) = some { c with core := { c.core with mem := m } } ∧
      m.byteAt a.toNat = v ∧ ∀ b : Nat, b ≠ a.toNat → m.byteAt b = c.core.mem.byteAt b) ∧
  (∀ (c : Session) (a : Addr) (w : Word), c.phase = .preRun → c.core.mem.wf → a.toNat ≤ 4094 →
    ∃ m : Memory, c.perform (wordWrites a w) = some { c with core := { c.core with mem := m } } ∧
      (m.byteAt a.toNat).toNat = w.toNat / 256 ∧ (m.byteAt (a.toNat + 1)).toNat = w.toNat % 256 ∧
      m.read16 a.toNat = w ∧
      ∀ b : Nat, b ≠ a.toNat → b ≠ a.toNat + 1 → m.byteAt b = c.core.mem.byteAt b)

/-- R154 (92_eei_decisions.md D1, D3, D4, D9): in the pre-run phase `HOST_WRITE_PC` sets `PC` to any value,
unchecked, and nothing else; from there the first STEP fetches where it can, odd or even, and ends in
OutOfBoundsFetch above 4094. That `PC` still has that value in the FAULTED state is D2, the spec's own
decision (log entry 4). -/
def Obligations.HostSetsTheEntryPoint : Prop :=
  ∀ (c : Session) (v : Word), c.phase = .preRun → c.core.status = .running →
    ∃ d : Session, c.transact (.writePc v) = some d ∧ d = { c with core := { c.core with pc := v } } ∧
      (v.toNat ≤ 4094 → d.core.Fetches ∧ d.core.wordAtPc = c.core.mem.read16 v.toNat) ∧
      (4094 < v.toNat → ∃ e : Session, d.transact .step = some e ∧ e.core.cause = .outOfBoundsFetch ∧
        e.core.pc = v)

/-- R155 (92_eei_decisions.md D8): in the pre-run phase `HOST_WRITE_REG` writes one register, index 15 as
plain storage, and nothing else. -/
def Obligations.HostPresetsOneRegister : Prop :=
  ∀ (c : Session) (i : RegIdx) (v : Byte), c.phase = .preRun →
    ∃ r : Vector Byte 16, c.transact (.writeReg i v) = some { c with core := { c.core with regs := r } } ∧
      r[i.toNat]'i.isLt = v ∧
      ∀ j : RegIdx, j ≠ i → r[j.toNat]'j.isLt = c.core.getReg j

/-- R152 (92_eei_decisions.md D8, log entry 9): the pre-run phase ends at the first STEP or RUN; from then
on the host has no write, and only RESET begins the phase again. -/
def Obligations.HostWritesOnlyBeforeTheRun : Prop :=
  (∀ c d : Session, c.transact .step = some d → d.phase = .started) ∧
  (∀ (c d : Session) (n : Nat), c.transact (.run n) = some d → d.phase = .started) ∧
  (∀ (c : Session) (a : Addr) (i : RegIdx) (v : Byte) (w : Word), c.phase = .started →
    c.transact (.writeMem a v) = none ∧ c.transact (.writePc w) = none ∧ c.transact (.writeReg i v) = none) ∧
  (∀ (c d : Session) (t : Transaction), c.phase = .started → c.transact t = some d →
    d.phase = .preRun → t = .reset)

/-- R157 (92_eei_decisions.md D14): no write of the host reaches `STACK`, `SP`, `STATUS`, `CAUSE` or
`CAUSE_WORD`. -/
def Obligations.HostWritesReachNoInternalState : Prop :=
  ∀ (c d : Session) (t : Transaction), t ≠ .reset → t ≠ .step → (∀ n, t ≠ .run n) →
    c.transact t = some d →
    d.core.stack = c.core.stack ∧ d.core.sp = c.core.sp ∧ d.core.status = c.core.status ∧
    d.core.cause = c.core.cause ∧ d.core.causeWord = c.core.causeWord ∧ d.phase = c.phase

/-- R19, R128 (92_eei_decisions.md D3, D5): a stopped core stays stopped, with its cause, under every
sequence of transactions without a RESET, and STEPs and RUNs leave all of it as it is. -/
def Obligations.OnlyResetLeavesAStop : Prop :=
  ∀ (ts : List Transaction) (c d : Session), c.core.status ≠ .running → Transaction.reset ∉ ts →
    c.perform ts = some d →
    d.core.status = c.core.status ∧ d.core.cause = c.core.cause ∧ d.core.causeWord = c.core.causeWord ∧
    (c.phase = .started → d.core = c.core)

/-- How an instruction comes to run in this model (log entry 12, a choice of the model): a word placed with
`withFetchWord` is the word the next step fetches, from every state with memory in canonical form. -/
def Obligations.PlacedWordIsTheNextStep : Prop :=
  ∀ (s : State) (i : Instr), s.mem.wf →
    step (s.withFetchWord 16 (encode i).toNat) = exec i (s.withFetchWord 16 (encode i).toNat).advance ∧
    (s.Fetches → ∃ m : Memory, s.withFetchWord 16 (encode i).toNat = { s with mem := m } ∧
      ∀ b : Nat, b ≠ s.pc.toNat → b ≠ s.pc.toNat + 1 → m.byteAt b = s.mem.byteAt b)
end

