-- ==== Sys2Proof/Laws/Decode.lean ====
section
/-! SUPPORT. Small laws of the decoder and encoder. -/

namespace Sys2Proof

/-- Field widths keep the operand ranges: the spec makes every field value legal (R54, R55). -/
theorem Instr.wf_eq_true (i : Instr) : i.wf = true := by
  cases i with
  | halt => rfl
  | ret => rfl
  | call nnn => simp only [Instr.wf, decide_eq_true_eq]; exact nnn.isLt
  | add x y => simp only [Instr.wf, Bool.and_eq_true, decide_eq_true_eq]; exact ⟨x.isLt, y.isLt⟩

theorem joinBytes_hiByte_loByte (w : Word) : joinBytes (hiByte w) (loByte w) = w := by
  apply BitVec.eq_of_getLsbD_eq
  intro i hi
  interval_cases i <;> simp [joinBytes, hiByte, loByte]

@[simp] theorem hiByte_joinBytes (a b : Byte) : hiByte (joinBytes a b) = a := by
  apply BitVec.eq_of_getLsbD_eq
  intro i hi
  interval_cases i <;> simp [joinBytes, hiByte]

@[simp] theorem loByte_joinBytes (a b : Byte) : loByte (joinBytes a b) = b := by
  apply BitVec.eq_of_getLsbD_eq
  intro i hi
  interval_cases i <;> simp [joinBytes, loByte]

/-- The word of two bytes as a number (R33). -/
theorem joinBytes_toNat (a b : Byte) : (joinBytes a b).toNat = a.toNat * 256 + b.toNat := by
  have ha := a.isLt
  have hb := b.isLt
  simp only [joinBytes, BitVec.toNat_or, BitVec.toNat_shiftLeft, BitVec.toNat_setWidth, Nat.shiftLeft_eq]
  rw [Nat.mod_eq_of_lt (a := a.toNat) (by omega), Nat.mod_eq_of_lt (a := b.toNat) (by omega),
    Nat.mod_eq_of_lt (by omega), ← Nat.shiftLeft_eq, ← Nat.shiftLeft_add_eq_or_of_lt hb, Nat.shiftLeft_eq]

/-- The word 0x0000 is HALT, so no illegal word is zero (10_state.md R26). -/
theorem decodeWord_none_ne_zero {w : Word} (h : decodeWord w = none) : w ≠ 0 := by
  rintro rfl
  exact absurd h (by decide)

/-- What a byte sequence decodes to, once and for all. -/
theorem decode_cons_cons (a b : Byte) (rest : List Byte) :
    decode (a :: b :: rest) = match decodeWord (joinBytes a b) with
      | some i => .ok (i, rest)
      | none => .error (.unimplementedOpcode (joinBytes a b)) := rfl

/-- The opcode-table entry point decodes the table's word. -/
theorem decodeTableWord_eq (nbits w : Nat) : decodeTableWord nbits w = decodeWord (tableWord nbits w) := by
  simp only [decodeTableWord, wordBytes, decode_cons_cons, joinBytes_hiByte_loByte]
  cases decodeWord (tableWord nbits w) <;> rfl

end Sys2Proof
end

