-- ==== Sys2Proof/Laws/State.lean ====
section
/-! SUPPORT. One lemma per field per update of the state, true by rfl. -/

namespace Sys2Proof.Machine

section Updates
variable (s : State)

/-! ## `PC <- v` -/
@[simp] theorem State.setPc_mem (v : Word) : (s.setPc v).mem = s.mem := rfl
@[simp] theorem State.setPc_regs (v : Word) : (s.setPc v).regs = s.regs := rfl
@[simp] theorem State.setPc_pc (v : Word) : (s.setPc v).pc = v := rfl
@[simp] theorem State.setPc_stack (v : Word) : (s.setPc v).stack = s.stack := rfl
@[simp] theorem State.setPc_sp (v : Word) : (s.setPc v).sp = s.sp := rfl
@[simp] theorem State.setPc_status (v : Word) : (s.setPc v).status = s.status := rfl
@[simp] theorem State.setPc_cause (v : Word) : (s.setPc v).cause = s.cause := rfl
@[simp] theorem State.setPc_causeWord (v : Word) : (s.setPc v).causeWord = s.causeWord := rfl

/-! ## The fetch stage's advance -/
@[simp] theorem State.advance_mem : s.advance.mem = s.mem := rfl
@[simp] theorem State.advance_regs : s.advance.regs = s.regs := rfl
@[simp] theorem State.advance_pc : s.advance.pc = s.pc + 2 := rfl
@[simp] theorem State.advance_stack : s.advance.stack = s.stack := rfl
@[simp] theorem State.advance_sp : s.advance.sp = s.sp := rfl
@[simp] theorem State.advance_status : s.advance.status = s.status := rfl
@[simp] theorem State.advance_cause : s.advance.cause = s.cause := rfl
@[simp] theorem State.advance_causeWord : s.advance.causeWord = s.causeWord := rfl

/-! ## `r[i] <- v` -/
@[simp] theorem State.setReg_mem (i : RegIdx) (v : Byte) : (s.setReg i v).mem = s.mem := rfl
@[simp] theorem State.setReg_regs (i : RegIdx) (v : Byte) :
    (s.setReg i v).regs = s.regs.set i.toNat v i.isLt := rfl
@[simp] theorem State.setReg_pc (i : RegIdx) (v : Byte) : (s.setReg i v).pc = s.pc := rfl
@[simp] theorem State.setReg_stack (i : RegIdx) (v : Byte) : (s.setReg i v).stack = s.stack := rfl
@[simp] theorem State.setReg_sp (i : RegIdx) (v : Byte) : (s.setReg i v).sp = s.sp := rfl
@[simp] theorem State.setReg_status (i : RegIdx) (v : Byte) : (s.setReg i v).status = s.status := rfl
@[simp] theorem State.setReg_cause (i : RegIdx) (v : Byte) : (s.setReg i v).cause = s.cause := rfl
@[simp] theorem State.setReg_causeWord (i : RegIdx) (v : Byte) :
    (s.setReg i v).causeWord = s.causeWord := rfl

/-! ## The flag write -/
@[simp] theorem State.setFlag_mem (v : Byte) : (s.setFlag v).mem = s.mem := rfl
@[simp] theorem State.setFlag_pc (v : Byte) : (s.setFlag v).pc = s.pc := rfl
@[simp] theorem State.setFlag_stack (v : Byte) : (s.setFlag v).stack = s.stack := rfl
@[simp] theorem State.setFlag_sp (v : Byte) : (s.setFlag v).sp = s.sp := rfl
@[simp] theorem State.setFlag_status (v : Byte) : (s.setFlag v).status = s.status := rfl
@[simp] theorem State.setFlag_cause (v : Byte) : (s.setFlag v).cause = s.cause := rfl
@[simp] theorem State.setFlag_causeWord (v : Byte) : (s.setFlag v).causeWord = s.causeWord := rfl
@[simp] theorem State.setFlag_regs (v : Byte) : (s.setFlag v).regs = s.regs.set 15 v := rfl

/-! ## `STATUS <- HALTED` -/
@[simp] theorem State.halt_mem : s.halt.mem = s.mem := rfl
@[simp] theorem State.halt_regs : s.halt.regs = s.regs := rfl
@[simp] theorem State.halt_pc : s.halt.pc = s.pc := rfl
@[simp] theorem State.halt_stack : s.halt.stack = s.stack := rfl
@[simp] theorem State.halt_sp : s.halt.sp = s.sp := rfl
@[simp] theorem State.halt_status : s.halt.status = .halted := rfl
@[simp] theorem State.halt_cause : s.halt.cause = s.cause := rfl
@[simp] theorem State.halt_causeWord : s.halt.causeWord = s.causeWord := rfl

/-! ## `raise K(info)` -/
@[simp] theorem State.raise_mem (k : Condition) : (s.raise k).mem = s.mem := rfl
@[simp] theorem State.raise_regs (k : Condition) : (s.raise k).regs = s.regs := rfl
@[simp] theorem State.raise_pc (k : Condition) : (s.raise k).pc = s.pc := rfl
@[simp] theorem State.raise_stack (k : Condition) : (s.raise k).stack = s.stack := rfl
@[simp] theorem State.raise_sp (k : Condition) : (s.raise k).sp = s.sp := rfl
@[simp] theorem State.raise_status (k : Condition) : (s.raise k).status = .faulted := rfl
@[simp] theorem State.raise_cause (k : Condition) : (s.raise k).cause = k.cause := rfl
@[simp] theorem State.raise_causeWord (k : Condition) : (s.raise k).causeWord = k.info := rfl

/-! ## `MEM[a] <- v`, the host's load port -/
@[simp] theorem State.writeMem_mem (a : Addr) (v : Byte) : (s.writeMem a v).mem = s.mem.write a v := rfl
@[simp] theorem State.writeMem_regs (a : Addr) (v : Byte) : (s.writeMem a v).regs = s.regs := rfl
@[simp] theorem State.writeMem_pc (a : Addr) (v : Byte) : (s.writeMem a v).pc = s.pc := rfl
@[simp] theorem State.writeMem_stack (a : Addr) (v : Byte) : (s.writeMem a v).stack = s.stack := rfl
@[simp] theorem State.writeMem_sp (a : Addr) (v : Byte) : (s.writeMem a v).sp = s.sp := rfl
@[simp] theorem State.writeMem_status (a : Addr) (v : Byte) : (s.writeMem a v).status = s.status := rfl
@[simp] theorem State.writeMem_cause (a : Addr) (v : Byte) : (s.writeMem a v).cause = s.cause := rfl
@[simp] theorem State.writeMem_causeWord (a : Addr) (v : Byte) :
    (s.writeMem a v).causeWord = s.causeWord := rfl

end Updates

/-! ## Registers: a read after a write -/

@[simp] theorem State.getReg_setReg_same (s : State) (i : RegIdx) (v : Byte) :
    (s.setReg i v).getReg i = v := by
  simp [State.getReg]

theorem State.getReg_setReg_other (s : State) {i j : RegIdx} (v : Byte) (h : i ≠ j) :
    (s.setReg i v).getReg j = s.getReg j := by
  have hne : i.toNat ≠ j.toNat := fun e => h (BitVec.eq_of_toNat_eq e)
  simp [State.getReg, hne]

@[simp] theorem State.getReg_setFlag_same (s : State) (v : Byte) : (s.setFlag v).getReg 0xF = v :=
  s.getReg_setReg_same 0xF v

theorem State.getReg_setFlag_other (s : State) {j : RegIdx} (v : Byte) (h : j ≠ 0xF) :
    (s.setFlag v).getReg j = s.getReg j := s.getReg_setReg_other v h.symm

@[simp] theorem State.getReg_setPc (s : State) (i : RegIdx) (v : Word) :
    (s.setPc v).getReg i = s.getReg i := rfl
@[simp] theorem State.getReg_advance (s : State) (i : RegIdx) : s.advance.getReg i = s.getReg i := rfl
@[simp] theorem State.getReg_halt (s : State) (i : RegIdx) : s.halt.getReg i = s.getReg i := rfl
@[simp] theorem State.getReg_raise (s : State) (i : RegIdx) (k : Condition) :
    (s.raise k).getReg i = s.getReg i := rfl

end Sys2Proof.Machine
end

