-- ==== Sys2Proof/Laws/HostPort.lean ====
section
/-! SUPPORT. What the host's transactions and reads can do, said once. -/

namespace Sys2Proof.Machine

/-- A host write that is a move: the phase is pre-run, and the core alone is changed (R152). -/
theorem Session.preRunWrite_eq_some {c d : Session} {effect : State} (h : c.preRunWrite effect = some d) :
    c.phase = .preRun ∧ d = { c with core := effect } := by
  unfold Session.preRunWrite at h
  split at h
  · exact ⟨‹_›, (Option.some.inj h).symm⟩
  · cases h

/-- A STEP that is answered (R152): the phase has started. -/
theorem Session.transact_step_eq_some {c d : Session} (h : c.transact .step = some d) :
    ∃ t, Machine.step c.core = .next t ∧ d = { core := t, phase := .started } := by
  simp only [Session.transact] at h
  split at h
  · exact ⟨_, ‹_›, (Option.some.inj h).symm⟩
  · cases h
  · cases h

/-- A RUN that ends within its fuel (R77, R152). -/
theorem Session.transact_run_eq_some {c d : Session} {n : Nat} (h : c.transact (.run n) = some d) :
    ∃ t, runFuel n c.core = some t ∧ d = { core := t, phase := .started } := by
  obtain ⟨t, ht, hd⟩ := Option.map_eq_some_iff.mp h
  exact ⟨t, ht, hd.symm⟩

/-- A host read of a register or a byte is a read of the state (R156). -/
@[simp] theorem State.hostView_reg (s : State) (i : RegIdx) : s.hostView.reg i = s.getReg i := rfl
@[simp] theorem State.hostView_byte (s : State) (a : Addr) : s.hostView.byte a = s.mem.byteAt a.toNat := rfl

end Sys2Proof.Machine
end

