-- ==== Sys2Proof/Laws/Memory.lean ====
section
/-! SUPPORT. The laws of memory: a read after a write, and that every memory operation keeps the canonical
form. -/

namespace Sys2Proof.Machine

theorem Memory.wf_nil : Memory.wf ([] : Memory) := ⟨List.Pairwise.nil, fun _ h => nomatch h⟩

theorem Memory.wf_tail {p : Host.Cell} {m : Memory} (h : Memory.wf (p :: m)) : m.wf :=
  ⟨h.1.tail, fun q hq => h.2 q (List.mem_cons_of_mem _ hq)⟩

/-- Below every listed address a memory reads as unlisted. -/
theorem Memory.byteAt_below (m : Memory) (a : Nat) (h : ∀ p ∈ m, a < p.1) :
    m.byteAt a = Config.unlistedByte := by
  induction m with
  | nil => rfl
  | cons p m ih =>
    have hp : a < p.1 := h p (by simp)
    simp only [Memory.byteAt, show p.1 ≠ a by omega, if_false]
    exact ih fun q hq => h q (List.mem_cons_of_mem _ hq)

theorem Memory.byteAt_tail {p : Host.Cell} {m : Memory} (h : Memory.wf (p :: m)) :
    m.byteAt p.1 = Config.unlistedByte :=
  m.byteAt_below p.1 fun q hq => (List.pairwise_cons.mp h.1).1 q hq

/-- A write leaves every other address alone. -/
theorem Memory.byteAt_insert_other (m : Memory) {a b : Nat} (v : Byte) (h : b ≠ a) :
    (m.insert a v).byteAt b = m.byteAt b := by
  induction m with
  | nil => unfold Memory.insert; split <;> simp [Memory.byteAt, h.symm]
  | cons p m ih =>
    obtain ⟨k, x⟩ := p
    unfold Memory.insert
    split
    · split <;> simp [Memory.byteAt, h.symm]
    · split
      · subst_vars; split <;> simp [Memory.byteAt, h.symm]
      · simp [Memory.byteAt, ih]

/-- A read after a write to the same address gives the byte written. -/
theorem Memory.byteAt_insert_same {m : Memory} (h : m.wf) (a : Nat) (v : Byte) :
    (m.insert a v).byteAt a = v := by
  induction m with
  | nil =>
    unfold Memory.insert; split
    · simp_all [Memory.byteAt]
    · simp [Memory.byteAt]
  | cons p m ih =>
    obtain ⟨k, x⟩ := p
    unfold Memory.insert
    split
    · rename_i hlt
      split
      · rename_i hv
        rw [hv]
        refine Memory.byteAt_below _ a fun q hq => ?_
        rcases List.mem_cons.mp hq with rfl | hq
        · exact hlt
        · exact Nat.lt_trans hlt ((List.pairwise_cons.mp h.1).1 q hq)
      · simp [Memory.byteAt]
    · split
      · rename_i hk
        subst hk
        split
        · rename_i hv
          rw [hv]; exact Memory.byteAt_tail h
        · simp [Memory.byteAt]
      · rename_i hne
        simp [Memory.byteAt, Ne.symm hne, ih (Memory.wf_tail h)]

theorem Memory.mem_insert {m : Memory} {a : Nat} {v : Byte} {q : Host.Cell} (h : q ∈ m.insert a v) :
    q ∈ m ∨ (q = (a, v) ∧ v ≠ Config.unlistedByte) := by
  induction m with
  | nil => unfold Memory.insert at h; split at h <;> simp_all
  | cons p m ih =>
    obtain ⟨k, x⟩ := p
    unfold Memory.insert at h
    split at h
    · split at h
      · exact .inl h
      · rcases List.mem_cons.mp h with rfl | h
        · exact .inr ⟨rfl, ‹_›⟩
        · exact .inl h
    · split at h
      · split at h
        · exact .inl (List.mem_cons_of_mem _ h)
        · rcases List.mem_cons.mp h with rfl | h
          · exact .inr ⟨rfl, ‹_›⟩
          · exact .inl (List.mem_cons_of_mem _ h)
      · rcases List.mem_cons.mp h with rfl | h
        · exact .inl (by simp)
        · exact (ih h).imp (List.mem_cons_of_mem _) id

/-- Every write keeps the canonical form. -/
theorem Memory.insert_wf {m : Memory} (h : m.wf) {a : Nat} (ha : a < Config.memSize) (v : Byte) :
    (m.insert a v).wf := by
  refine ⟨?_, fun q hq => ?_⟩
  · induction m with
    | nil => unfold Memory.insert; split <;> simp
    | cons p m ih =>
      obtain ⟨k, x⟩ := p
      have hrest := List.pairwise_cons.mp h.1
      unfold Memory.insert
      split
      · rename_i hlt
        split
        · exact h.1
        · refine List.pairwise_cons.mpr ⟨fun q hq => ?_, h.1⟩
          rcases List.mem_cons.mp hq with rfl | hq
          · exact hlt
          · exact Nat.lt_trans hlt (hrest.1 q hq)
      · split
        · rename_i hk
          subst hk
          split
          · exact hrest.2
          · exact List.pairwise_cons.mpr ⟨hrest.1, hrest.2⟩
        · rename_i hlt hne
          refine List.pairwise_cons.mpr ⟨fun q hq => ?_, ih (Memory.wf_tail h)⟩
          rcases Memory.mem_insert hq with hq | ⟨rfl, -⟩
          · exact hrest.1 q hq
          · show k < a; omega
  · rcases Memory.mem_insert hq with hq | ⟨rfl, hv⟩
    · exact h.2 q hq
    · exact ⟨ha, hv⟩

theorem Memory.write_wf {m : Memory} (h : m.wf) (a : Addr) (v : Byte) : (m.write a v).wf :=
  Memory.insert_wf h a.isLt v

theorem Memory.writeWord_wf {m : Memory} (h : m.wf) (a : Addr) (w : Word) : (m.writeWord a w).wf :=
  Memory.write_wf (Memory.write_wf h a _) _ _

theorem State.reset_mem_wf : State.reset.mem.wf := Memory.wf_nil

/-- An address outside memory names no cell, and none is listed for it. -/
theorem Memory.byteAt_outside {m : Memory} (h : m.wf) {a : Nat} (ha : Config.memSize ≤ a) :
    m.byteAt a = Config.unlistedByte := by
  induction m with
  | nil => rfl
  | cons p m ih =>
    have hp := (h.2 p (by simp)).1
    simp only [Memory.byteAt, show p.1 ≠ a by omega, if_false]
    exact ih (Memory.wf_tail h)

end Sys2Proof.Machine
end

