-- ==== Sys2Proof/Laws/Ops.lean ====
section
/-! SUPPORT. For each shared operation one lemma that says all it can do, cited instead of unfolding it. -/

namespace Sys2Proof.Machine

/-! ## The call stack -/

/-- A push that answers: the stack was not full, and the first unoccupied entry holds the value (R95). -/
theorem State.push_eq_some {s t : State} {v : Word} (h : s.push v = some t) :
    ∃ hlt : s.sp.val < 16,
      t = { s with stack := s.stack.set s.sp.val v hlt, sp := ⟨s.sp.val + 1, by omega⟩ } := by
  unfold State.push at h
  split at h
  · exact ⟨‹_›, (Option.some.inj h).symm⟩
  · cases h

theorem State.push_of_lt {s : State} (v : Word) (h : s.sp.val < 16) :
    s.push v = some { s with stack := s.stack.set s.sp.val v h, sp := ⟨s.sp.val + 1, by omega⟩ } := by
  simp [State.push, h]

theorem State.push_eq_none {s : State} {v : Word} : s.push v = none ↔ s.sp = 16 := by
  have := s.sp.isLt
  unfold State.push
  split <;> simp [Fin.ext_iff] <;> omega

/-- A pop that answers: the stack was not empty, the value is the last occupied entry, and only `SP` has
changed (R96). -/
theorem State.pop_eq_some {s t : State} {v : Word} (h : s.pop = some (v, t)) :
    ∃ hlt : 0 < s.sp.val,
      v = s.stack[s.sp.val - 1]'(by have := s.sp.isLt; omega) ∧
      t = { s with sp := ⟨s.sp.val - 1, by have := s.sp.isLt; omega⟩ } := by
  unfold State.pop at h
  split at h
  · cases h; exact ⟨‹_›, rfl, rfl⟩
  · cases h

theorem State.pop_of_pos {s : State} (h : 0 < s.sp.val) :
    s.pop = some (s.stack[s.sp.val - 1]'(by have := s.sp.isLt; omega),
      { s with sp := ⟨s.sp.val - 1, by have := s.sp.isLt; omega⟩ }) := by
  simp [State.pop, h]

theorem State.pop_eq_none {s : State} : s.pop = none ↔ s.sp = 0 := by
  have := s.sp.isLt
  have hz : s.sp = 0 ↔ s.sp.val = 0 := Fin.ext_iff
  rw [hz]
  unfold State.pop
  split <;> simp <;> omega

/-! ## The fetch stage -/

/-- What a fetch stage leaves: the state itself on a stopped core, the fault of R121 past the bound, else
the word at `PC` and the advanced state. -/
theorem fetchStage_cases (s : State) :
    (s.status ≠ .running ∧ fetchStage s = .done s) ∨
    (s.status = .running ∧ fetchOk s.pc = false ∧ fetchStage s = .done (s.raise .outOfBoundsFetch)) ∨
    (s.status = .running ∧ fetchOk s.pc = true ∧
      fetchStage s = .word (s.mem.read16 s.pc.toNat) s.advance) := by
  cases hs : s.status with
  | halted => exact .inl ⟨by decide, by simp only [fetchStage, hs]⟩
  | faulted => exact .inl ⟨by decide, by simp only [fetchStage, hs]⟩
  | running =>
    cases hf : fetchOk s.pc with
    | false => exact .inr (.inl ⟨rfl, rfl, by simp only [fetchStage, hs, hf]; rfl⟩)
    | true => exact .inr (.inr ⟨rfl, rfl, by simp only [fetchStage, hs, hf]; rfl⟩)

theorem fetchOk_iff (pc : Word) : fetchOk pc = true ↔ pc.toNat ≤ 4094 := decide_eq_true_iff

/-- The advance of a fetch that passed the bound check does not wrap (10_state.md R16). -/
theorem State.advance_pc_toNat {s : State} (h : fetchOk s.pc = true) :
    s.advance.pc.toNat = s.pc.toNat + 2 := by
  have := (fetchOk_iff s.pc).mp h
  rw [State.advance_pc, BitVec.toNat_add, show (2 : Word).toNat = 2 from rfl]
  omega

/-! ## Conditions -/

theorem Condition.cause_ne_noCause (k : Condition) : k.cause ≠ .noCause := by cases k <;> nofun

theorem Condition.info_eq_zero {k : Condition} (h : k.cause ≠ .unimplementedOpcode) : k.info = 0 := by
  cases k <;> first | rfl | exact absurd rfl h

/-! ## Placing a word where the next step fetches -/

/-- The readied state fetches (log entry 12). -/
theorem State.readied_fetches (s : State) : s.readied.status = .running ∧ fetchOk s.readied.pc = true := by
  have hreset : fetchOk 0#16 = true := by decide
  unfold State.readied
  by_cases hs : s.status = .running <;> by_cases hf : fetchOk s.pc = true <;> simp [hs, hf, hreset]

/-- A state that fetches is ready as it is. -/
theorem State.readied_of_fetches {s : State} (hs : s.status = .running) (hf : fetchOk s.pc = true) :
    s.readied = s := by
  simp [State.readied, hs, hf]

end Sys2Proof.Machine
end

