-- ==== Sys2Proof/Laws/PerInstr.lean ====
section
/-! SUPPORT. Per-instruction families of lemmas (LAWS.json): one lemma per constructor of `Instr`. -/

namespace Sys2Proof.Laws.RowMatch

/-- The encoding of an instruction selects its own row of the opcode map (30_encoding.md R56). -/
def Statement (i : Instr) : Prop := i.row.selects (encode i) = true

theorem halt : Statement .halt := rfl
theorem ret : Statement .ret := rfl

theorem call (nnn : Addr) : Statement (.call nnn) := by
  unfold Statement OpcodeRow.selects
  refine decide_eq_true (BitVec.eq_of_getLsbD_eq fun i hi => ?_)
  interval_cases i <;> simp [Instr.row, rowCall, encode]

theorem add (x y : RegIdx) : Statement (.add x y) := by
  unfold Statement OpcodeRow.selects
  refine decide_eq_true (BitVec.eq_of_getLsbD_eq fun i hi => ?_)
  interval_cases i <;> simp [Instr.row, rowAdd, encode]

end Sys2Proof.Laws.RowMatch
end

