-- ==== Sys2Proof/Laws/Step.lean ====
section
/-! SUPPORT. What an instruction and a step can do, said once. -/

namespace Sys2Proof.Machine

/-- All that the execute stage can do: halt, jump after a push, jump to a popped address, the two writes of
ADD, or one of the two stack conditions. -/
theorem exec_cases {i : Instr} {s t : State} (h : exec i s = .next t) :
    (i = .halt ∧ t = s.halt) ∨
    (∃ nnn u, i = .call nnn ∧ s.push s.pc = some u ∧ t = u.setPc (addrOperand nnn)) ∨
    (∃ nnn, i = .call nnn ∧ s.sp = 16 ∧ t = s.raise .stackOverflow) ∨
    (∃ v u, i = .ret ∧ s.pop = some (v, u) ∧ t = u.setPc v) ∨
    (i = .ret ∧ s.sp = 0 ∧ t = s.raise .stackUnderflow) ∨
    (∃ x y, i = .add x y ∧ t = (s.setReg x (sumByte (s.getReg x) (s.getReg y))).setFlag
      (carryByte (s.getReg x) (s.getReg y))) := by
  cases i with
  | halt => exact .inl ⟨rfl, (Host.Outcome.next.inj h).symm⟩
  | ret =>
    simp only [exec, execReturn] at h
    split at h
    · exact .inr (.inr (.inr (.inl ⟨_, _, rfl, ‹_›, (Host.Outcome.next.inj h).symm⟩)))
    · exact .inr (.inr (.inr (.inr (.inl
        ⟨rfl, State.pop_eq_none.mp ‹_›, (Host.Outcome.next.inj h).symm⟩))))
  | call nnn =>
    simp only [exec, execCall] at h
    split at h
    · exact .inr (.inl ⟨_, _, rfl, ‹_›, (Host.Outcome.next.inj h).symm⟩)
    · exact .inr (.inr (.inl ⟨_, rfl, State.push_eq_none.mp ‹_›, (Host.Outcome.next.inj h).symm⟩))
  | add x y => exact .inr (.inr (.inr (.inr (.inr ⟨x, y, rfl, (Host.Outcome.next.inj h).symm⟩))))

/-- All that a step can do: nothing on a stopped core, the fetch fault, the illegal-word fault, or the
execute stage of the decoded instruction on the post-fetch state. -/
theorem step_cases (s : State) :
    (s.status ≠ .running ∧ step s = .next s) ∨
    (s.status = .running ∧ fetchOk s.pc = false ∧ step s = .next (s.raise .outOfBoundsFetch)) ∨
    (s.status = .running ∧ fetchOk s.pc = true ∧ decodeWord (s.mem.read16 s.pc.toNat) = none ∧
      step s = .next (s.advance.raise (.unimplementedOpcode (s.mem.read16 s.pc.toNat)))) ∨
    (∃ i, s.status = .running ∧ fetchOk s.pc = true ∧ decodeWord (s.mem.read16 s.pc.toNat) = some i ∧
      step s = exec i s.advance) := by
  rcases fetchStage_cases s with ⟨hs, hf⟩ | ⟨hs, ho, hf⟩ | ⟨hs, ho, hf⟩
  · exact .inl ⟨hs, by simp only [step, hf]⟩
  · exact .inr (.inl ⟨hs, ho, by simp only [step, hf]⟩)
  · cases hd : decodeWord (s.mem.read16 s.pc.toNat) with
    | none => exact .inr (.inr (.inl ⟨hs, ho, rfl, by simp only [step, hf, hd, dispatchIllegal]⟩))
    | some i => exact .inr (.inr (.inr ⟨i, hs, ho, rfl, by simp only [step, hf, hd]⟩))

/-- The word a host places is the word the next step fetches. -/
theorem Memory.read16_writeWord {m : Memory} (h : m.wf) {a : Addr} (ha : a.toNat ≤ 4094) (w : Word) :
    (m.writeWord a w).read16 a.toNat = w := by
  have h1 : (a + 1).toNat = a.toNat + 1 := by
    rw [BitVec.toNat_add, show (1 : Addr).toNat = 1 from rfl]; omega
  unfold Memory.writeWord Memory.read16 Memory.write
  rw [h1, Memory.byteAt_insert_same (Memory.insert_wf h a.isLt _),
    Memory.byteAt_insert_other _ _ (by omega), Memory.byteAt_insert_same h, joinBytes_hiByte_loByte]

end Sys2Proof.Machine
end

