-- ==== Sys2Proof/Tests/Slice0.lean ====
section
/-! SUPPORT. Small tests. Expected results come from 95_test_vectors.md (named in each comment) or from the
encodings of 30_encoding.md, never from the model. The last part shows, for every statement with
hypotheses, a state and operands that meet them all, at the ends of their ranges. -/

namespace Sys2Proof.Tests

open Sys2Proof.Machine

/-! ## Helpers -/

/-- A fresh core with a word loaded at address 0. -/
def loaded (w : Nat) : State := State.reset.withFetchWord 16 w

/-- The state after a step. -/
def afterStep (s : State) : State :=
  match step s with
  | .next t => t
  | .fault _ | .refused _ => s

/-- The state after the execute stage. -/
def afterExec (i : Instr) (s : State) : State :=
  match exec i s with
  | .next t => t
  | .fault _ | .refused _ => s

/-- A core with `n` return addresses, each 0x0002 (program P2 of 95_test_vectors.md). -/
def stacked (s : State) (n : Fin 17) : State := { s with stack := Vector.replicate 16 0x0002, sp := n }

/-! ## WellFormed: one ill-formed term for each check -/

theorem test_wf_call_target_too_large : (Written.call 4096).wf = false := by decide
theorem test_wf_add_destination_too_large : (Written.add 16 0).wf = false := by decide
theorem test_wf_add_source_too_large : (Written.add 0 16).wf = false := by decide
theorem test_wf_largest_operands :
    (Written.call 4095).wf = true ∧ (Written.add 15 15).wf = true ∧ (Instr.call 0xFFF).wf = true ∧
    (Instr.add 0xF 0xF).wf = true := by decide

/-! ## Decoding: words written out bit by bit from R56's encodings -/

theorem test_decode_halt : decodeTableWord 16 0b0000000000000000 = some .halt := by decide
theorem test_decode_return : decodeTableWord 16 0b0000000011101110 = some .ret := by decide
theorem test_decode_call : decodeTableWord 16 0b0010101111001101 = some (.call 0xBCD) := by decide
theorem test_decode_add : decodeTableWord 16 0b1000101010110100 = some (.add 0xA 0xB) := by decide

/-- V-ILL1 to V-ILL11 and V-DEC8: words that are no instruction. -/
theorem test_decode_illegal :
    [0x0001, 0x00E0, 0x0EE0, 0x00EF, 0x1000, 0x1100, 0x8010, 0x8015, 0x801F, 0x6005, 0xFFFF, 0x1234].all
      (fun w => (decodeTableWord 16 w).isNone) = true := by decide

/-- High byte at the lower address (R33): 80 14 is `ADD r0,r1`, 14 80 is no instruction. -/
theorem test_decode_byte_order :
    (match decode [0x80, 0x14, 0x00] with | .ok r => r = (.add 0 1, [0x00]) | .error _ => False) ∧
    (match decode [0x14, 0x80] with | .error e => e = .unimplementedOpcode 0x1480 | .ok _ => False) ∧
    (match decode [0x80] with | .error e => e = .tooShort | .ok _ => False) := by
  refine ⟨?_, ?_, ?_⟩ <;> rfl

theorem test_encode : encode .ret = 0x00EE ∧ encode (.call 0xFFF) = 0x2FFF ∧ encode (.add 0xA 0xB) = 0x8AB4 := by
  decide

/-- R61's own spellings. -/
theorem test_assemble :
    assemble ['C', 'A', 'L', 'L', ' ', '0', 'x', '1', '0', '0'] = some (.call 0x100) ∧
    assemble ['C', 'A', 'L', 'L', ' ', '2', '5', '6'] = some (.call 0x100) ∧
    assemble ['A', 'D', 'D', ' ', 'r', '0', ',', 'r', '1'] = some (.add 0 1) ∧
    assemble ['A', 'D', 'D', ' ', 'r', '1', '5', ',', 'r', 'F'] = some (.add 0xF 0xF) ∧
    assemble ['C', 'A', 'L', 'L', ' ', '4', '0', '9', '6'] = none ∧
    assemble ['A', 'D', 'D', ' ', 'r', '1', '6', ',', 'r', '0'] = none := by decide

/-! ## One step -/

/-- V-FE7: a fresh core with nothing loaded halts. -/
theorem test_step_halt_fresh : (afterStep State.reset).pc = 0x0002 ∧ (afterStep State.reset).status = .halted := by
  decide

/-- V-FE1: a HALT fetched at 4094 leaves `PC = 4096`. -/
theorem test_step_halt_last_address :
    (afterStep { State.reset with pc := 4094 }).pc = 0x1000 ∧
    (afterStep { State.reset with pc := 4094 }).status = .halted := by decide

/-- V-CR3, step 1: `CALL 0xFFF`. -/
theorem test_step_call :
    (afterStep (loaded 0x2FFF)).pc = 0x0FFF ∧ (afterStep (loaded 0x2FFF)).sp = 1 ∧
    (afterStep (loaded 0x2FFF)).stack[0] = 0x0002 ∧ (afterStep (loaded 0x2FFF)).status = .running := by decide

/-- V-CR4: the seventeenth nested CALL. -/
theorem test_step_call_full_stack :
    (afterStep (stacked (loaded 0x2000) 16)).pc = 0x0002 ∧ (afterStep (stacked (loaded 0x2000) 16)).sp = 16 ∧
    (afterStep (stacked (loaded 0x2000) 16)).cause = .stackOverflow ∧
    (afterStep (stacked (loaded 0x2000) 16)).status = .faulted := by decide

/-- V-CR2: RETURN at 0x100, and the popped entry keeps its value. -/
theorem test_step_return :
    let s := ({ stacked State.reset 1 with pc := 0x100 } : State).withFetchWord 16 0x00EE
    (afterStep s).pc = 0x0002 ∧ (afterStep s).sp = 0 ∧ (afterStep s).stack[0] = 0x0002 := by decide

/-- V-CR5: RETURN on an empty stack. -/
theorem test_step_return_empty_stack :
    (afterStep (loaded 0x00EE)).pc = 0x0002 ∧ (afterStep (loaded 0x00EE)).sp = 0 ∧
    (afterStep (loaded 0x00EE)).cause = .stackUnderflow ∧ (afterStep (loaded 0x00EE)).causeWord = 0 := by decide

/-- V-ADD13: `ADD r2,rF` with `r2 = 250`, `rF = 10`. -/
theorem test_step_add_flag_as_source :
    let t := afterStep (((loaded 0x82F4).setReg 2 250).setReg 0xF 10)
    t.getReg 2 = 4 ∧ t.getReg 0xF = 1 ∧ t.pc = 2 := by decide

/-- V-ADD16: `ADD rF,r1` with `rF = 3`, `r1 = 4`: the carry replaces the sum. -/
theorem test_step_add_flag_as_destination :
    let t := afterStep (((loaded 0x8F14).setReg 0xF 3).setReg 1 4)
    t.getReg 0xF = 0 ∧ t.getReg 1 = 4 := by decide

/-- V-FE4: no wrap of `PC + 1` at 0xFFFF. -/
theorem test_step_fetch_at_top :
    (afterStep { State.reset with pc := 0xFFFF }).cause = .outOfBoundsFetch ∧
    (afterStep { State.reset with pc := 0xFFFF }).pc = 0xFFFF := by decide

/-- V-FE5: a fetch from an odd address, memory 12 80 14 00. -/
theorem test_step_fetch_odd :
    let s : State := { State.reset with pc := 1, mem := [(0, 0x12), (1, 0x80), (2, 0x14)] }
    let t := afterStep ((s.setReg 0 7).setReg 1 8)
    t.getReg 0 = 15 ∧ t.getReg 0xF = 0 ∧ t.pc = 3 := by decide

/-- V-ILL6. -/
theorem test_step_illegal :
    (afterStep (loaded 0x1100)).cause = .unimplementedOpcode ∧ (afterStep (loaded 0x1100)).causeWord = 0x1100 ∧
    (afterStep (loaded 0x1100)).pc = 2 := by decide

/-- V-HO1, and a write of 0 leaves nothing listed. -/
theorem test_load_port :
    (State.reset.writeMem 0x100 0x80).writeMem 0x101 0x14 =
      { State.reset with mem := [(0x100, 0x80), (0x101, 0x14)] } ∧
    (State.reset.writeMem 0x100 0x80).writeMem 0x100 0 = State.reset := by decide

/-! ## Witnesses: the hypotheses of the statements can be met -/

theorem witness_OpcodeRowsAreDisjoint :
    rowHalt.selects 0x0000 = true ∧ rowReturn.selects 0x00EE = true ∧ rowCall.selects 0x2FFF = true ∧
    rowAdd.selects 0x8FF4 = true := by decide

theorem witness_DecodeAndEncodeAgree :
    decodeWord 0x8FF4 = some (.add 0xF 0xF) ∧ decodeWord 0x2000 = some (.call 0) ∧
    (match decode [0x8F, 0xF4] with | .ok r => r = (.add 0xF 0xF, []) | .error _ => False) :=
  ⟨by decide, by decide, rfl⟩

theorem witness_WrittenFormsHaveTheirWords :
    Written.halt.wf = true ∧ (Written.call 4095).wf = true ∧ (Written.add 15 15).wf = true ∧ 4095 < 4096 ∧
    (15 < 16 ∨ 15 < 0) := by decide

/-- A fetch at the first, the last and an odd address. -/
theorem witness_Fetch :
    (State.reset.status = .running ∧ State.reset.pc.toNat ≤ 4094) ∧
    (({ State.reset with pc := 4094 } : State).status = .running ∧ (4094 : Word).toNat ≤ 4094) ∧
    ({ State.reset with pc := 1 } : State).Fetches := by decide

theorem witness_StepRunsTheDecodedInstruction :
    (loaded 0x8FF4).status = .running ∧ (loaded 0x8FF4).pc.toNat ≤ 4094 ∧ (Instr.add 0xF 0xF).wf = true ∧
    (match decode [(loaded 0x8FF4).mem.byteAt (loaded 0x8FF4).pc.toNat,
        (loaded 0x8FF4).mem.byteAt ((loaded 0x8FF4).pc.toNat + 1)] with
      | .ok r => r = (.add 0xF 0xF, []) | .error _ => False) :=
  ⟨by decide, by decide, by decide, rfl⟩

theorem witness_FetchPastMemoryFaults :
    ({ State.reset with pc := 4095 } : State).status = .running ∧ 4094 < (4095 : Word).toNat ∧
    4094 < (0xFFFF : Word).toNat := by decide

theorem witness_IllegalWordFaults :
    (loaded 0x0001).status = .running ∧ (loaded 0x0001).pc.toNat ≤ 4094 ∧ (loaded 0x0001).wordAtPc ≠ 0x0000 ∧
    (loaded 0x0001).wordAtPc ≠ 0x00EE ∧ (loaded 0x0001).wordAtPc &&& 0xF000 ≠ 0x2000 ∧
    (loaded 0x0001).wordAtPc &&& 0xF00F ≠ 0x8004 := by decide

theorem witness_StoppedCoreIsLeftAsItIs :
    State.reset.halt.status ≠ .running ∧ (State.reset.raise .stackUnderflow).status ≠ .running := by decide

/-- A running state for each way a step ends. -/
theorem witness_StepEndsInExactlyOneWay :
    State.reset.FaultRecordOk ∧ (loaded 0x2000).FaultRecordOk ∧ State.reset.status = .running ∧
    (afterStep { State.reset with pc := 4095 }).cause = .outOfBoundsFetch ∧
    (afterStep (loaded 0xFFFF)).cause = .unimplementedOpcode ∧
    (afterStep (stacked (loaded 0x2000) 16)).cause = .stackOverflow ∧
    (afterStep (loaded 0x00EE)).cause = .stackUnderflow ∧ (afterStep (loaded 0x0000)).status = .halted ∧
    (afterStep (loaded 0x8004)).status = .running ∧
    (afterStep (stacked (loaded 0x2000) 15)).status = .running ∧
    (afterStep (stacked (loaded 0x00EE) 1)).status = .running := by decide

theorem witness_FaultsArePrecise :
    step (loaded 0x00EE) = .next (afterStep (loaded 0x00EE)) ∧ (afterStep (loaded 0x00EE)).EndedInFault ∧
    (afterStep (loaded 0x00EE)).cause ≠ .outOfBoundsFetch ∧
    (afterStep { State.reset with pc := 4095 }).EndedInFault := ⟨rfl, by decide, by decide, by decide⟩

theorem witness_HaltStopsTheCore :
    State.reset.status = .running ∧ State.reset.pc.toNat ≤ 4094 ∧
    State.reset.mem.byteAt State.reset.pc.toNat = 0x00 ∧
    State.reset.mem.byteAt (State.reset.pc.toNat + 1) = 0x00 ∧
    step { State.reset with pc := 4095 } = .next (afterStep { State.reset with pc := 4095 }) ∧
    4094 < ({ State.reset with pc := 4095 } : State).pc.toNat :=
  ⟨by decide, by decide, by decide, by decide, rfl, by decide⟩

theorem witness_UnloadedMemoryHalts :
    ({ loaded 0x2100 with pc := 4094 } : State).status = .running ∧ (4094 : Word).toNat ≤ 4094 ∧
    (∀ p ∈ ({ loaded 0x2100 with pc := 4094 } : State).mem,
      p.1 ≠ (4094 : Word).toNat ∧ p.1 ≠ (4094 : Word).toNat + 1) := by decide

/-- The ends of the range of `SP`: CALL completes at 0 and 15 and faults at 16, RETURN faults at 0 and
completes at 1 and 16. -/
theorem witness_CallAndReturn :
    State.reset.sp.val < 16 ∧ (stacked State.reset 15).sp.val < 16 ∧ (stacked State.reset 16).sp = 16 ∧
    State.reset.sp = 0 ∧ ((stacked State.reset 1).sp.val = 0 + 1 ∧ 0 < 16) ∧
    ((stacked State.reset 16).sp.val = 15 + 1 ∧ 15 < 16) := by decide

/-- The state of a callee that has itself called and returned: entry 1 holds a stale address. -/
def backFromInner : State :=
  let t := afterExec (.call 0xFFF) State.reset
  { t with pc := 0x500, stack := t.stack.set 1 0x0502 }

theorem witness_ReturnComesBackAfterTheCall :
    State.reset.sp ≠ 16 ∧
    exec (.call 0xFFF) State.reset = .next (afterExec (.call 0xFFF) State.reset) ∧
    (∀ k : Fin 16, k.val = State.reset.sp.val →
      backFromInner.stack[k] = (afterExec (.call 0xFFF) State.reset).stack[k]) ∧
    backFromInner.sp = (afterExec (.call 0xFFF) State.reset).sp ∧
    backFromInner.stack ≠ (afterExec (.call 0xFFF) State.reset).stack :=
  ⟨by decide, rfl, by decide, by decide, by decide⟩

theorem witness_PushesComeBackLastInFirstOut :
    State.reset.sp.val + (List.replicate 16 (0x0002 : Word)).length ≤ 16 ∧
    16 < State.reset.sp.val + (List.replicate 17 (0x0002 : Word)).length := by decide

/-- Sixteen nested calls fill the stack, seventeen are too many; two of them have different call sites. -/
theorem witness_NestedCallsReturnLastInFirstOut :
    State.reset.status = .running ∧
    State.reset.sp.val + (List.replicate 16 ((0x0002 : Word), (0x000 : Addr))).length = 16 ∧
    16 < State.reset.sp.val + (List.replicate 17 ((0x0002 : Word), (0x000 : Addr))).length ∧
    [((0x0002 : Word), (0x010 : Addr)), (0x0012, 0x020)].getLast? = some (0x0012, 0x020) := by decide

/-- V-CR7: the outer CALL, an inner CALL and its RETURN, and the outer RETURN. -/
def nested : State :=
  { State.reset with
    mem := [(0x000, 0x20), (0x001, 0x10), (0x010, 0x20), (0x011, 0x20), (0x013, 0xEE), (0x021, 0xEE)] }

theorem witness_ReturnMatchesItsCall :
    (nested.Fetches ∧ nested.sp ≠ 16 ∧ decodeWord nested.wordAtPc = some (.call 0x010)) ∧
    step nested = .next (afterStep nested) ∧
    stepTimes 2 (afterStep nested) = some (afterStep (afterStep (afterStep nested))) ∧
    (∀ j ≤ 2, ∀ w : State, stepTimes j (afterStep nested) = some w → (afterStep nested).sp ≤ w.sp) ∧
    (afterStep (afterStep (afterStep nested))).Fetches ∧
    (afterStep (afterStep (afterStep nested))).sp = (afterStep nested).sp ∧
    decodeWord (afterStep (afterStep (afterStep nested))).wordAtPc = some .ret := by
  refine ⟨by decide, rfl, rfl, ?_, by decide, by decide, by decide⟩
  intro j hj w hw
  interval_cases j <;> cases hw <;> decide

theorem witness_OnlyCallAndReturnTransferControl :
    ((loaded 0x2FFF).Fetches ∧ step (loaded 0x2FFF) = .next (afterStep (loaded 0x2FFF)) ∧
      (afterStep (loaded 0x2FFF)).status ≠ .faulted) ∧
    ((loaded 0x2FFF).sp ≠ 16 ∧ decodeWord (loaded 0x2FFF).wordAtPc = some (.call 0xFFF)) ∧
    ((stacked (loaded 0x00EE) 1).Fetches ∧
      (stacked (loaded 0x00EE) 1).pop = some (0x0002, stacked (loaded 0x00EE) 0) ∧
      decodeWord (stacked (loaded 0x00EE) 1).wordAtPc = some .ret) ∧
    ((loaded 0x8014).Fetches ∧ (afterStep (loaded 0x8014)).status ≠ .faulted) :=
  ⟨⟨by decide, rfl, by decide⟩, ⟨by decide, by decide⟩, ⟨by decide, rfl, by decide⟩, by decide, by decide⟩

/-- The five cases of R106. -/
theorem witness_Add :
    (exec (.add 0 1) State.reset = .next (afterExec (.add 0 1) State.reset) ∧
      exec (.add 1 0) State.reset = .next (afterExec (.add 1 0) State.reset)) ∧
    ((0 : RegIdx) ≠ 0xF ∧ (1 : RegIdx) ≠ 0xF ∧ (0 : RegIdx) ≠ 1) ∧
    exec (.add 0xE 0xE) State.reset = .next (afterExec (.add 0xE 0xE) State.reset) ∧
    exec (.add 0 0xF) State.reset = .next (afterExec (.add 0 0xF) State.reset) ∧
    exec (.add 0xF 0) State.reset = .next (afterExec (.add 0xF 0) State.reset) ∧
    exec (.add 0xF 0xF) State.reset = .next (afterExec (.add 0xF 0xF) State.reset) ∧
    ((2 : RegIdx) ≠ 0 ∧ (2 : RegIdx) ≠ 0xF) :=
  ⟨⟨rfl, rfl⟩, by decide, rfl, rfl, rfl, rfl, by decide⟩

theorem witness_FlagRegisterStaysABit :
    step (loaded 0x8014) = .next (afterStep (loaded 0x8014)) ∧ ((loaded 0x8014).getReg 0xF).toNat ≤ 1 ∧
    step (loaded 0x2100) = .next (afterStep (loaded 0x2100)) ∧
    (decodeWord (loaded 0x2100).wordAtPc = some (.call 0x100)) := ⟨rfl, by decide, rfl, by decide⟩

/-- Every instruction completes somewhere, and the two that can fault do so elsewhere. -/
theorem witness_FrameOfEveryInstruction :
    exec .halt State.reset = .next (afterExec .halt State.reset) ∧
    exec (.add 0 0xF) State.reset = .next (afterExec (.add 0 0xF) State.reset) ∧
    exec (.call 1) State.reset = .next (afterExec (.call 1) State.reset) ∧
    exec .ret (stacked State.reset 16) = .next (afterExec .ret (stacked State.reset 16)) ∧
    exec .ret State.reset = .next (State.reset.raise .stackUnderflow) ∧
    exec (.call 1) (stacked State.reset 16) = .next ((stacked State.reset 16).raise .stackOverflow) :=
  ⟨rfl, rfl, rfl, rfl, rfl, rfl⟩

theorem witness_RegistersBelongToAdd :
    (State.reset.getReg 0 = (State.reset.setReg 5 9).getReg 0 ∧ State.reset.getReg 1 = (State.reset.setReg 5 9).getReg 1) ∧
    exec (.add 0 1) (State.reset.setReg 5 9) = .next (afterExec (.add 0 1) (State.reset.setReg 5 9)) :=
  ⟨by decide, rfl⟩

/-- Two states that differ in an unoccupied entry. -/
theorem witness_UnoccupiedStackEntriesAreUnobservable :
    State.reset.AgreeButUnoccupied (stacked State.reset 0) ∧ State.reset ≠ stacked State.reset 0 ∧
    stepTimes 1 State.reset = some (afterStep State.reset) := ⟨by decide, by decide, rfl⟩

theorem witness_RunIsRepeatedStep :
    runFuel 1 State.reset = some (afterStep State.reset) ∧ runFuel 0 State.reset = none ∧
    stepTimes 1 State.reset = some (afterStep State.reset) ∧ (afterStep State.reset).RunEnded :=
  ⟨rfl, rfl, rfl, by decide⟩

/-- The invariant is met by a core in the middle of a program. -/
theorem witness_EveryStepKeepsTheInvariant :
    (stacked (loaded 0x2100) 15).Inv ∧
    step (stacked (loaded 0x2100) 15) = .next (afterStep (stacked (loaded 0x2100) 15)) := ⟨by decide, rfl⟩

/-- A state that fetches at the last address, and one past it that does not. -/
theorem witness_EveryStepKeepsThePcBound :
    (({ State.reset with pc := 4094 } : State).Inv ∧ ({ State.reset with pc := 4094 } : State).Fetches ∧
      step { State.reset with pc := 4094 } = .next (afterStep { State.reset with pc := 4094 })) ∧
    (({ State.reset with pc := 4096 } : State).Inv ∧ ({ State.reset with pc := 4096 } : State).pc.toNat ≤ 4096 ∧
      step { State.reset with pc := 4096 } = .next (afterStep { State.reset with pc := 4096 })) :=
  ⟨⟨by decide, by decide, rfl⟩, by decide, by decide, rfl⟩

theorem witness_ReachableStatesMeetR26 :
    Reachable true { core := afterStep (State.reset.writeMem 0 0x21), phase := .started } :=
  .step (c := { core := State.reset.writeMem 0 0x21, phase := .preRun })
    (.write (t := .writeMem 0 0x21) .fresh (by decide) nofun rfl) rfl

theorem witness_EvenAlignmentIsKeptByEvenTargets :
    (stacked (loaded 0x2100) 15).EvenAligned ∧
    decodeWord (stacked (loaded 0x2100) 15).wordAtPc = some (.call 0x100) ∧ (0x100 : Addr).toNat % 2 = 0 := by
  decide

theorem witness_Memory :
    (loaded 0x8FF4).mem.wf ∧ (State.reset.mem.writeWord 4094 0x8FF4).wf ∧
    (∀ p ∈ State.reset.mem.writeWord 4094 0x8FF4, State.reset.mem.byteAt p.1 = 0) := by decide

theorem witness_HostWrites :
    Session.fresh.phase = .preRun ∧ Session.fresh.core.mem.wf ∧ (4094 : Addr).toNat ≤ 4094 ∧
    Session.fresh.core.status = .running ∧ (4094 : Word).toNat ≤ 4094 ∧ 4094 < (4095 : Word).toNat ∧
    (Session.fresh.transact .step).isSome = true ∧ (Session.fresh.transact (.run 1)).isSome = true ∧
    (Session.fresh.transact (.writeReg 0xF 0xAB)).isSome = true := by decide

theorem witness_HostWritesOnlyBeforeTheRun :
    ({ core := State.reset, phase := .started } : Session).transact .reset = some Session.fresh ∧
    Session.fresh.phase = .preRun := ⟨rfl, rfl⟩

theorem witness_OnlyResetLeavesAStop :
    State.reset.halt.status ≠ .running ∧ Transaction.reset ∉ [Transaction.step, .run 3] ∧
    (Session.perform { core := State.reset.halt, phase := .started } [.step, .run 3]).isSome = true := by decide

theorem witness_PlacedWordIsTheNextStep : State.reset.mem.wf ∧ State.reset.Fetches := by decide

end Sys2Proof.Tests
end

/-! ## The invariants of reachable states (10_state.md rule R26): O54, O41 -/

namespace Sys2Proof.Machine

/-! ### What each state operation does to the invariant -/

section
variable {s u : State} {v : Word}

/-- A fault is recorded as R26 (b) and (c) ask where a recorded word is never 0 for UnimplementedOpcode: the
other conditions record 0. -/
theorem State.faultRecordOk_raise {k : Condition} (hk : k.cause = .unimplementedOpcode → k.info ≠ 0) :
    (s.raise k).FaultRecordOk := by
  refine ⟨iff_of_true rfl (Condition.cause_ne_noCause k), fun hinfo => ?_, hk⟩
  by_contra hcause
  exact hinfo (Condition.info_eq_zero hcause)

/-- A push of a bounded address keeps the occupied entries bounded: it occupies one more, with the address. -/
theorem State.stackBounded_push (h : s.StackBounded) (hv : v.toNat ≤ 4096) (hp : s.push v = some u) :
    u.StackBounded := by
  obtain ⟨hlt, rfl⟩ := State.push_eq_some hp
  intro i hi
  by_cases hsp : s.sp.val = i.val
  · simpa [Vector.getElem_set, hsp] using hv
  · have hocc : i.val < s.sp.val := by simp only at hi; omega
    simpa [Vector.getElem_set, hsp] using h i hocc

/-- A pop keeps the occupied entries bounded, since it only frees one. -/
theorem State.stackBounded_pop (h : s.StackBounded) (hp : s.pop = some (v, u)) : u.StackBounded := by
  obtain ⟨hpos, -, rfl⟩ := State.pop_eq_some hp
  intro i hi
  exact h i (by simp only at hi; omega)

/-- The popped entry was occupied, so it is bounded. -/
theorem State.pop_value_le (h : s.StackBounded) (hp : s.pop = some (v, u)) : v.toNat ≤ 4096 := by
  obtain ⟨hpos, rfl, -⟩ := State.pop_eq_some hp
  have := s.sp.isLt
  exact h ⟨s.sp.val - 1, by omega⟩ (by simp only; omega)

/-- The invariant does not look at `PC`. -/
theorem State.inv_setPc : (s.setPc v).Inv ↔ s.Inv := Iff.rfl

theorem State.inv_advance : s.advance.Inv ↔ s.Inv := Iff.rfl

/-- The invariant does not look at the registers. -/
theorem State.inv_setReg {i : RegIdx} {b : Byte} : (s.setReg i b).Inv ↔ s.Inv := Iff.rfl

theorem State.inv_setFlag {b : Byte} : (s.setFlag b).Inv ↔ s.Inv := Iff.rfl

theorem State.inv_writeMem {a : Addr} {b : Byte} (h : s.Inv) : (s.writeMem a b).Inv :=
  ⟨Memory.write_wf h.1 a b, h.2⟩

theorem State.inv_raise {k : Condition} (h : s.Inv) (hk : k.cause = .unimplementedOpcode → k.info ≠ 0) :
    (s.raise k).Inv := by
  obtain ⟨hmem, -, hstack⟩ := h
  exact ⟨hmem, State.faultRecordOk_raise hk, hstack⟩

/-- A running core has no fault recorded, so it may halt. -/
theorem State.inv_halt (h : s.Inv) (hrun : s.status = .running) : s.halt.Inv := by
  obtain ⟨hmem, ⟨hfault, hword⟩, hstack⟩ := h
  refine ⟨hmem, ⟨?_, hword⟩, hstack⟩
  simpa [hrun] using hfault

theorem State.inv_push (h : s.Inv) (hv : v.toNat ≤ 4096) (hp : s.push v = some u) : u.Inv := by
  obtain ⟨hmem, hrecord, hstack⟩ := h
  have hbound := State.stackBounded_push hstack hv hp
  obtain ⟨_, rfl⟩ := State.push_eq_some hp
  exact ⟨hmem, hrecord, hbound⟩

theorem State.inv_pop (h : s.Inv) (hp : s.pop = some (v, u)) : u.Inv ∧ v.toNat ≤ 4096 := by
  obtain ⟨hmem, hrecord, hstack⟩ := h
  have hbound := State.stackBounded_pop hstack hp
  have hvalue := State.pop_value_le hstack hp
  obtain ⟨_, _, rfl⟩ := State.pop_eq_some hp
  exact ⟨⟨hmem, hrecord, hbound⟩, hvalue⟩

end

/-! ### The execute stage, the step and RUN -/

/-- The invariant with R26 (d)'s bound on `PC`, which a host write of `PC` may break but no step. -/
def State.InvBounded (s : State) : Prop := s.Inv ∧ s.pc.toNat ≤ 4096

/-- The target of a CALL is an address of memory (R54). -/
theorem addrOperand_le (nnn : Addr) : (addrOperand nnn).toNat ≤ 4096 := by
  have := nnn.isLt
  simp only [addrOperand, BitVec.toNat_setWidth]
  omega

theorem State.Fetches.pc_le {s : State} (h : s.Fetches) : s.pc.toNat ≤ 4096 := by
  obtain ⟨-, hok⟩ := h
  exact ((fetchOk_iff s.pc).mp hok).trans (by decide)

/-- The advance of a fetch leaves `PC` at most 4096, its value after the last address (R16). -/
theorem State.advance_pc_le {s : State} (h : fetchOk s.pc = true) : s.advance.pc.toNat ≤ 4096 := by
  have := (fetchOk_iff s.pc).mp h
  have := State.advance_pc_toNat h
  omega

/-- The execute stage keeps the invariant and the bound on `PC` of a running core: a CALL saves that `PC`
and goes to an address of memory, a RETURN goes to an occupied entry. -/
theorem exec_keeps_invBounded {i : Instr} {s t : State} (hs : s.InvBounded) (hrun : s.status = .running)
    (he : exec i s = .next t) : t.InvBounded := by
  obtain ⟨h, hpc⟩ := hs
  rcases exec_cases he with ⟨-, rfl⟩ | ⟨nnn, u, -, hpush, rfl⟩ | ⟨nnn, -, -, rfl⟩ |
    ⟨v, u, -, hpop, rfl⟩ | ⟨-, -, rfl⟩ | ⟨x, y, -, rfl⟩
  · exact ⟨State.inv_halt h hrun, hpc⟩
  · exact ⟨State.inv_setPc.mpr (State.inv_push h hpc hpush), addrOperand_le nnn⟩
  · exact ⟨State.inv_raise h nofun, hpc⟩
  · obtain ⟨hu, hv⟩ := State.inv_pop h hpop
    exact ⟨State.inv_setPc.mpr hu, hv⟩
  · exact ⟨State.inv_raise h nofun, hpc⟩
  · exact ⟨State.inv_setFlag.mpr (State.inv_setReg.mpr h), hpc⟩

/-- A step that fetches brings the bound on `PC` about by its advance, wherever it fetched from. -/
theorem step_of_fetches_invBounded {s t : State} (h : s.Inv) (hf : s.Fetches) (hstep : step s = .next t) :
    t.InvBounded := by
  obtain ⟨hrun, hok⟩ := hf
  have hadv : s.advance.InvBounded := ⟨State.inv_advance.mpr h, State.advance_pc_le hok⟩
  rcases step_cases s with ⟨hs, -⟩ | ⟨-, ho, -⟩ | ⟨-, -, hd, hs⟩ | ⟨i, -, -, -, hs⟩
  · exact absurd hrun hs
  · cases ho.symm.trans hok
  · cases hs.symm.trans hstep
    have hword : (Condition.unimplementedOpcode (s.mem.read16 s.pc.toNat)).info ≠ 0 :=
      decodeWord_none_ne_zero hd
    exact ⟨State.inv_raise hadv.1 fun _ => hword, hadv.2⟩
  · exact exec_keeps_invBounded hadv hrun (hs.symm.trans hstep)

/-- A step that does not fetch leaves a stopped core alone or takes the fetch fault, and never moves `PC`. -/
theorem step_of_not_fetches {s t : State} (h : s.Inv) (hf : ¬ s.Fetches) (hstep : step s = .next t) :
    t.Inv ∧ t.pc = s.pc := by
  rcases step_cases s with ⟨-, hs⟩ | ⟨-, -, hs⟩ | ⟨hrun, hok, -, -⟩ | ⟨i, hrun, hok, -, -⟩
  · cases hs.symm.trans hstep
    exact ⟨h, rfl⟩
  · cases hs.symm.trans hstep
    exact ⟨State.inv_raise h nofun, rfl⟩
  · exact absurd ⟨hrun, hok⟩ hf
  · exact absurd ⟨hrun, hok⟩ hf

theorem step_keeps_inv {s t : State} (h : s.Inv) (hstep : step s = .next t) : t.Inv := by
  by_cases hf : s.Fetches
  · exact (step_of_fetches_invBounded h hf hstep).1
  · exact (step_of_not_fetches h hf hstep).1

theorem step_keeps_invBounded {s t : State} (hs : s.InvBounded) (hstep : step s = .next t) :
    t.InvBounded := by
  obtain ⟨h, hpc⟩ := hs
  by_cases hf : s.Fetches
  · exact step_of_fetches_invBounded h hf hstep
  · obtain ⟨hinv, hsame⟩ := step_of_not_fetches h hf hstep
    exact ⟨hinv, hsame ▸ hpc⟩

/-- What every step keeps, a RUN that ends keeps (R77). -/
theorem runFuel_keeps {P : State → Prop} (hP : ∀ {s t : State}, P s → step s = .next t → P t) {n : Nat}
    {s t : State} (h : P s) (hrun : runFuel n s = some t) : P t := by
  induction n generalizing s with
  | zero =>
    simp only [runFuel] at hrun
    split at hrun
    · cases hrun
    · exact Option.some.inj hrun ▸ h
  | succ n ih =>
    simp only [runFuel] at hrun
    split at hrun
    · split at hrun
      · exact ih (hP h ‹_›) hrun
      · cases hrun
      · cases hrun
    · exact Option.some.inj hrun ▸ h

/-! ### Reachable sessions -/

/-- A write of the host is a move of the pre-run phase only, and keeps the invariant (R152 to R155). -/
theorem Session.transact_write_keeps_inv {c d : Session} {t : Transaction}
    (hmem : t ∉ [Transaction.reset, .step]) (hrun : ∀ n, t ≠ .run n) (h : c.transact t = some d)
    (hinv : c.core.Inv) : c.phase = .preRun ∧ d.core.Inv := by
  cases t with
  | reset | step => simp at hmem
  | run n => exact absurd rfl (hrun n)
  | writeMem a v =>
    obtain ⟨hphase, rfl⟩ := Session.preRunWrite_eq_some h
    exact ⟨hphase, State.inv_writeMem hinv⟩
  | writePc v =>
    obtain ⟨hphase, rfl⟩ := Session.preRunWrite_eq_some h
    exact ⟨hphase, State.inv_setPc.mpr hinv⟩
  | writeReg i v =>
    obtain ⟨hphase, rfl⟩ := Session.preRunWrite_eq_some h
    exact ⟨hphase, State.inv_setReg.mpr hinv⟩

/-- What holds of a reachable session, strong enough to be inductive: once a fetch has succeeded the pre-run
phase is over, so that the host can no longer write `PC`. -/
def Session.Sound (fetched : Bool) (c : Session) : Prop :=
  c.core.Inv ∧ (fetched = true → c.phase = .started ∧ c.core.pc.toNat ≤ 4096)

theorem Session.sound_fresh : Session.fresh.Sound false := ⟨by decide, nofun⟩

/-- A STEP or a RUN that keeps the invariant, alone and with the bound on `PC`, keeps a session sound: it
starts the run, and a state that fetches meets the bound. -/
theorem Session.Sound.started {b : Bool} {c : Session} {t : State} (h : c.Sound b)
    (hinv : c.core.Inv → t.Inv) (hpc : c.core.InvBounded → t.InvBounded) :
    Session.Sound (b || decide c.core.Fetches) { core := t, phase := .started } := by
  obtain ⟨hcore, hfetched⟩ := h
  refine ⟨hinv hcore, fun hb => ⟨rfl, (hpc ⟨hcore, ?_⟩).2⟩⟩
  rcases Bool.or_eq_true_iff.mp hb with hb | hf
  · exact (hfetched hb).2
  · exact State.Fetches.pc_le (of_decide_eq_true hf)

theorem Reachable.sound {b : Bool} {c : Session} (h : Reachable b c) : c.Sound b := by
  induction h with
  | fresh => exact Session.sound_fresh
  | reset _ htr _ => exact Option.some.inj htr ▸ Session.sound_fresh
  | @write b c c' t _ hmem hrun htr ih =>
    obtain ⟨hphase, hinv⟩ := Session.transact_write_keeps_inv hmem hrun htr ih.1
    refine ⟨hinv, fun hb => ?_⟩
    cases hphase.symm.trans (ih.2 hb).1
  | step _ htr ih =>
    obtain ⟨t, hstep, rfl⟩ := Session.transact_step_eq_some htr
    exact ih.started (step_keeps_inv · hstep) (step_keeps_invBounded · hstep)
  | run _ htr ih =>
    obtain ⟨t, hrun, rfl⟩ := Session.transact_run_eq_some htr
    exact ih.started (runFuel_keeps step_keeps_inv · hrun) (runFuel_keeps step_keeps_invBounded · hrun)

/-! ### The obligations -/

/-- Settles O54: a state that fetches meets the bound already, and every step keeps it. -/
theorem everyStepKeepsThePcBound : Obligations.EveryStepKeepsThePcBound := by
  intro s t h hbound hstep
  exact step_keeps_invBounded ⟨h, hbound.elim State.Fetches.pc_le id⟩ hstep

/-- Settles O41, by induction on reachability with the invariant `Session.Sound`. -/
theorem reachableStatesMeetR26 : Obligations.ReachableStatesMeetR26 := by
  intro b c h
  obtain ⟨hinv, hfetched⟩ := h.sound
  exact ⟨hinv, Nat.le_of_lt_succ c.core.sp.isLt, fun hb => (hfetched hb).2⟩

end Sys2Proof.Machine

namespace Sys2Proof

/-! ## The decoder's fields of a word of two bytes (20_memory.md R33, 30_encoding.md R51) -/

/-- A slice of a slice is the slice of the word at the sum of the two offsets. -/
theorem extractLsb'_extractLsb'_add {n i m j k : Nat} (w : BitVec n) (h : j + k ≤ m) :
    (w.extractLsb' i m).extractLsb' j k = w.extractLsb' (i + j) k := by
  ext l hl
  have hlt : j + l < m := by omega
  simp [hlt, Nat.add_assoc]

/-- The high byte of a word gives `c` and `x`, the low byte `y` and `d`. -/
theorem decodeFields_eq_bytes (w : Word) :
    (decodeFields w).c = (hiByte w).extractLsb' 4 4 ∧ (decodeFields w).x = (hiByte w).extractLsb' 0 4 ∧
      (decodeFields w).y = (loByte w).extractLsb' 4 4 ∧ (decodeFields w).d = (loByte w).extractLsb' 0 4 := by
  have hslice (i j : Nat) (h : j + 4 ≤ 8) : w.extractLsb' (i + j) 4 = (w.extractLsb' i 8).extractLsb' j 4 :=
    (extractLsb'_extractLsb'_add w h).symm
  exact ⟨hslice 8 4 (by decide), hslice 8 0 (by decide), hslice 0 4 (by decide), hslice 0 0 (by decide)⟩

/-- The fields of the word two bytes form are the nibbles of the bytes. -/
theorem decodeFields_joinBytes (b0 b1 : Byte) :
    (decodeFields (joinBytes b0 b1)).c = b0.extractLsb' 4 4 ∧
      (decodeFields (joinBytes b0 b1)).x = b0.extractLsb' 0 4 ∧
      (decodeFields (joinBytes b0 b1)).y = b1.extractLsb' 4 4 ∧
      (decodeFields (joinBytes b0 b1)).d = b1.extractLsb' 0 4 := by
  simpa only [hiByte_joinBytes, loByte_joinBytes] using decodeFields_eq_bytes (joinBytes b0 b1)

end Sys2Proof

namespace Sys2Proof.Machine

/-! ## 20_memory.md: the fetch is big-endian -/

/-- The fetch stage of a state that fetches reads the word at `PC`, even or odd (R36). -/
theorem fetchStage_of_fetches {s : State} (h : s.Fetches) : fetchStage s = .word s.wordAtPc s.advance := by
  obtain ⟨hrun, hok⟩ := h
  rcases fetchStage_cases s with ⟨hs, -⟩ | ⟨-, ho, -⟩ | ⟨-, -, hf⟩
  · exact absurd hrun hs
  · cases ho.symm.trans hok
  · exact hf

/-- Settles O10: the word fetched joins the bytes at `PC` and `PC + 1`, so its value and fields are theirs. -/
theorem fetchIsBigEndian : Obligations.FetchIsBigEndian := by
  intro s hrun hpc
  have hfetch := fetchStage_of_fetches ⟨hrun, (fetchOk_iff s.pc).mpr hpc⟩
  exact ⟨_, hfetch, rfl, joinBytes_toNat _ _, decodeFields_joinBytes _ _⟩

end Sys2Proof.Machine

namespace Sys2Proof

/-! ## 30_encoding.md, the fields of a word (R51) -/

section
variable (v w : Word)

/-- A field is the word shifted down by the field's position, under a mask of the field's width. -/
theorem setWidth_extractLsb'_eq_shift_and (i k : Nat) :
    (w.extractLsb' i k).setWidth 16 = (w >>> i) &&& (BitVec.allOnes k).setWidth 16 := by
  ext l hl
  simp [Bool.and_comm]

theorem decodeFields_c_toNat : (decodeFields w).c.toNat = w.toNat / 4096 := by
  have hw := w.isLt
  have hshift := Nat.shiftRight_eq_div_pow w.toNat 12
  simp only [decodeFields, BitVec.extractLsb'_toNat]
  omega

theorem decodeFields_x_toNat : (decodeFields w).x.toNat = w.toNat / 256 % 16 := by
  simp only [decodeFields, BitVec.extractLsb'_toNat, Nat.shiftRight_eq_div_pow, Nat.reducePow]

theorem decodeFields_y_toNat : (decodeFields w).y.toNat = w.toNat / 16 % 16 := by
  simp only [decodeFields, BitVec.extractLsb'_toNat, Nat.shiftRight_eq_div_pow, Nat.reducePow]

theorem decodeFields_d_toNat : (decodeFields w).d.toNat = w.toNat % 16 := by
  simp only [decodeFields, BitVec.extractLsb'_toNat, Nat.shiftRight_zero, Nat.reducePow]

theorem decodeFields_nnn_toNat : (decodeFields w).nnn.toNat = w.toNat % 4096 := by
  simp only [decodeFields, BitVec.extractLsb'_toNat, Nat.shiftRight_zero, Nat.reducePow]

/-- The immediate is the number with the digits `x`, `y`, `d`. -/
theorem decodeFields_nnn_eq_digits : (decodeFields w).nnn.toNat =
    (decodeFields w).x.toNat * 256 + (decodeFields w).y.toNat * 16 + (decodeFields w).d.toNat := by
  rw [decodeFields_nnn_toNat, decodeFields_x_toNat, decodeFields_y_toNat, decodeFields_d_toNat]
  omega

/-- The word is the class followed by the immediate. -/
theorem toNat_eq_class_add_nnn :
    w.toNat = (decodeFields w).c.toNat * 4096 + (decodeFields w).nnn.toNat := by
  rw [decodeFields_c_toNat, decodeFields_nnn_toNat]
  omega

variable {v w}

/-- The four nibbles determine the word. -/
theorem word_eq_iff_fields : v = w ↔
    (decodeFields v).c = (decodeFields w).c ∧ (decodeFields v).x = (decodeFields w).x ∧
      (decodeFields v).y = (decodeFields w).y ∧ (decodeFields v).d = (decodeFields w).d := by
  refine ⟨by rintro rfl; exact ⟨rfl, rfl, rfl, rfl⟩, ?_⟩
  rintro ⟨hc, hx, hy, hd⟩
  apply BitVec.eq_of_toNat_eq
  rw [toNat_eq_class_add_nnn v, toNat_eq_class_add_nnn w, decodeFields_nnn_eq_digits,
    decodeFields_nnn_eq_digits, hc, hx, hy, hd]

/-- A match under a mask is a match of each field under that field of the mask. -/
theorem and_mask_eq_iff_fields {mask bits : Word} : w &&& mask = bits ↔
    (decodeFields w).c &&& (decodeFields mask).c = (decodeFields bits).c ∧
      (decodeFields w).x &&& (decodeFields mask).x = (decodeFields bits).x ∧
      (decodeFields w).y &&& (decodeFields mask).y = (decodeFields bits).y ∧
      (decodeFields w).d &&& (decodeFields mask).d = (decodeFields bits).d := by
  rw [word_eq_iff_fields]
  simp only [decodeFields, BitVec.extractLsb'_and]

end

/-- Settles O1: shift and mask, then the digits of the number, then the nibbles of the two bytes. -/
theorem fieldsAreTheNibblesOfTheWord : Obligations.FieldsAreTheNibblesOfTheWord := by
  refine ⟨fun w => ⟨?_, ?_, ?_, ?_, ?_, decodeFields_nnn_eq_digits w, toNat_eq_class_add_nnn w⟩,
    decodeFields_joinBytes⟩
  · exact setWidth_extractLsb'_eq_shift_and w 12 4
  · exact setWidth_extractLsb'_eq_shift_and w 8 4
  · exact setWidth_extractLsb'_eq_shift_and w 4 4
  · exact setWidth_extractLsb'_eq_shift_and w 0 4
  · exact setWidth_extractLsb'_eq_shift_and w 0 12

/-! ## 30_encoding.md, the opcode map (R56) -/

/-- A field that a mask covers is matched as it stands (the mask as `simp` evaluates it). -/
theorem nibble_and_mask (n : Nibble) : n &&& 15#4 = n := BitVec.and_allOnes

/-! ### The patterns of the rows, as matches under the masks -/

section
variable {w : Word}

theorem halt_pattern_iff : ((decodeFields w).c = 0 ∧ (decodeFields w).x = 0 ∧ (decodeFields w).y = 0 ∧
    (decodeFields w).d = 0) ↔ w &&& 0xFFFF = 0x0000 := by
  simp [and_mask_eq_iff_fields, decodeFields, nibble_and_mask]

theorem return_pattern_iff : ((decodeFields w).c = 0 ∧ (decodeFields w).x = 0 ∧ (decodeFields w).y = 0xE ∧
    (decodeFields w).d = 0xE) ↔ w &&& 0xFFFF = 0x00EE := by
  simp [and_mask_eq_iff_fields, decodeFields, nibble_and_mask]

theorem call_pattern_iff : (decodeFields w).c = 0x2 ↔ w &&& 0xF000 = 0x2000 := by
  simp [and_mask_eq_iff_fields, decodeFields, nibble_and_mask]

theorem add_pattern_iff :
    ((decodeFields w).c = 0x8 ∧ (decodeFields w).d = 0x4) ↔ w &&& 0xF00F = 0x8004 := by
  simp [and_mask_eq_iff_fields, decodeFields, nibble_and_mask]

end

/-! ### The dispatcher's choice -/

section
variable {f : Fields}

/-- All that the dispatcher's match can answer: the instruction of the pattern the tuple has, or none where
it has none of the four. -/
theorem select_cases (f : Fields) :
    ((f.c = 0 ∧ f.x = 0 ∧ f.y = 0 ∧ f.d = 0) ∧ select f = some .halt) ∨
    ((f.c = 0 ∧ f.x = 0 ∧ f.y = 0xE ∧ f.d = 0xE) ∧ select f = some .ret) ∨
    (f.c = 0x2 ∧ select f = some (.call f.nnn)) ∨
    ((f.c = 0x8 ∧ f.d = 0x4) ∧ select f = some (.add f.x f.y)) ∨
    (¬(f.c = 0 ∧ f.x = 0 ∧ f.y = 0 ∧ f.d = 0) ∧ ¬(f.c = 0 ∧ f.x = 0 ∧ f.y = 0xE ∧ f.d = 0xE) ∧
      f.c ≠ 0x2 ∧ ¬(f.c = 0x8 ∧ f.d = 0x4) ∧ select f = none) := by
  unfold select
  split_ifs with hhalt hret hcall hadd
  · exact .inl ⟨hhalt, rfl⟩
  · exact .inr (.inl ⟨hret, rfl⟩)
  · exact .inr (.inr (.inl ⟨hcall, rfl⟩))
  · exact .inr (.inr (.inr (.inl ⟨hadd, rfl⟩)))
  · exact .inr (.inr (.inr (.inr ⟨hhalt, hret, hcall, hadd, rfl⟩)))

theorem select_eq_halt_iff :
    select f = some .halt ↔ f.c = 0 ∧ f.x = 0 ∧ f.y = 0 ∧ f.d = 0 := by
  rcases select_cases f with ⟨hp, hs⟩ | ⟨⟨-, -, hy, -⟩, hs⟩ | ⟨hc, hs⟩ | ⟨⟨hc, -⟩, hs⟩ | ⟨hp, -, -, -, hs⟩
  · exact iff_of_true hs hp
  · simp [hs, hy]
  · simp [hs, hc]
  · simp [hs, hc]
  · simpa [hs] using hp

theorem select_eq_ret_iff :
    select f = some .ret ↔ f.c = 0 ∧ f.x = 0 ∧ f.y = 0xE ∧ f.d = 0xE := by
  rcases select_cases f with ⟨⟨-, -, hy, -⟩, hs⟩ | ⟨hp, hs⟩ | ⟨hc, hs⟩ | ⟨⟨hc, -⟩, hs⟩ | ⟨-, hp, -, -, hs⟩
  · simp [hs, hy]
  · exact iff_of_true hs hp
  · simp [hs, hc]
  · simp [hs, hc]
  · simpa [hs] using hp

theorem select_eq_call_iff {nnn : Addr} :
    select f = some (.call nnn) ↔ f.c = 0x2 ∧ f.nnn = nnn := by
  rcases select_cases f with ⟨⟨hc, -⟩, hs⟩ | ⟨⟨hc, -⟩, hs⟩ | ⟨hc, hs⟩ | ⟨⟨hc, -⟩, hs⟩ | ⟨-, -, hp, -, hs⟩
  · simp [hs, hc]
  · simp [hs, hc]
  · simp [hs, hc]
  · simp [hs, hc]
  · exact iff_of_false (by simp [hs]) fun h => hp h.1

theorem select_eq_add_iff {x y : RegIdx} :
    select f = some (.add x y) ↔ (f.c = 0x8 ∧ f.d = 0x4) ∧ f.x = x ∧ f.y = y := by
  rcases select_cases f with ⟨⟨hc, -⟩, hs⟩ | ⟨⟨hc, -⟩, hs⟩ | ⟨hc, hs⟩ | ⟨hp, hs⟩ | ⟨-, -, -, hp, hs⟩
  · simp [hs, hc]
  · simp [hs, hc]
  · simp [hs, hc]
  · simp [hs, hp]
  · exact iff_of_false (by simp [hs]) fun h => hp h.1

theorem select_eq_none_iff : select f = none ↔
    ¬(f.c = 0 ∧ f.x = 0 ∧ f.y = 0 ∧ f.d = 0) ∧ ¬(f.c = 0 ∧ f.x = 0 ∧ f.y = 0xE ∧ f.d = 0xE) ∧
      f.c ≠ 0x2 ∧ ¬(f.c = 0x8 ∧ f.d = 0x4) := by
  rcases select_cases f with ⟨hp, hs⟩ | ⟨hp, hs⟩ | ⟨hp, hs⟩ | ⟨hp, hs⟩ | ⟨hh, hr, hc, ha, hs⟩
  · simp [hs, hp]
  · simp [hs, hp]
  · simp [hs, hp]
  · simp [hs, hp]
  · exact iff_of_true hs ⟨hh, hr, hc, ha⟩

end

/-! ### The instruction of a word, by its match under the mask -/

section
variable {w : Word}

theorem decodeWord_eq_halt_iff : decodeWord w = some .halt ↔ w &&& 0xFFFF = 0x0000 :=
  select_eq_halt_iff.trans halt_pattern_iff

theorem decodeWord_eq_ret_iff : decodeWord w = some .ret ↔ w &&& 0xFFFF = 0x00EE :=
  select_eq_ret_iff.trans return_pattern_iff

theorem decodeWord_eq_call_iff {nnn : Addr} :
    decodeWord w = some (.call nnn) ↔ w &&& 0xF000 = 0x2000 ∧ (decodeFields w).nnn = nnn :=
  select_eq_call_iff.trans (and_congr_left' call_pattern_iff)

theorem decodeWord_eq_add_iff {x y : RegIdx} : decodeWord w = some (.add x y) ↔
    w &&& 0xF00F = 0x8004 ∧ (decodeFields w).x = x ∧ (decodeFields w).y = y :=
  select_eq_add_iff.trans (and_congr_left' add_pattern_iff)

theorem decodeWord_eq_none_iff : decodeWord w = none ↔
    w &&& 0xFFFF ≠ 0x0000 ∧ w &&& 0xFFFF ≠ 0x00EE ∧ w &&& 0xF000 ≠ 0x2000 ∧ w &&& 0xF00F ≠ 0x8004 :=
  select_eq_none_iff.trans (and_congr halt_pattern_iff.not (and_congr return_pattern_iff.not
    (and_congr call_pattern_iff.not add_pattern_iff.not)))

end

/-- Settles O2: the patterns by the fields of the masks, the instructions by the cases of the dispatcher. -/
theorem opcodeMapSelectsByPatternAndMask : Obligations.OpcodeMapSelectsByPatternAndMask := by
  intro w
  exact ⟨halt_pattern_iff, decodeWord_eq_halt_iff, return_pattern_iff, decodeWord_eq_ret_iff,
    call_pattern_iff, decodeWord_eq_call_iff.trans (and_iff_left rfl),
    add_pattern_iff, decodeWord_eq_add_iff.trans (and_iff_left ⟨rfl, rfl⟩), decodeWord_eq_none_iff⟩

/-! ## 30_encoding.md, no word selects two rows (R57) -/

/-- Two rows whose fixed bits differ where both masks look select no word in common. -/
theorem OpcodeRow.selects_disjoint {p q : OpcodeRow} (h : p.bits &&& q.mask ≠ q.bits &&& p.mask) {w : Word}
    (hp : p.selects w = true) : q.selects w = false := by
  have hpw : w &&& p.mask = p.bits := of_decide_eq_true hp
  refine decide_eq_false fun hqw => h ?_
  calc p.bits &&& q.mask = w &&& p.mask &&& q.mask := by rw [hpw]
    _ = w &&& q.mask &&& p.mask := by ac_rfl
    _ = q.bits &&& p.mask := by rw [hqw]

/-- Any two rows of the opcode map differ in a bit that both masks look at. -/
theorem opcodeMap_bits_differ : opcodeMap.Pairwise fun p q => p.bits &&& q.mask ≠ q.bits &&& p.mask := by
  decide

/-- Settles O3: rows that differ under both masks are disjoint. -/
theorem opcodeRowsAreDisjoint : Obligations.OpcodeRowsAreDisjoint :=
  opcodeMap_bits_differ.imp fun h _ hp => OpcodeRow.selects_disjoint h hp

/-! ## 30_encoding.md, the legal words of each class (R58) -/

/-- The legal words as numbers: HALT, RETURN, the class of CALL, and the words of class 8 whose last digit
is 4. -/
theorem decodeWord_isSome_iff_toNat (w : Word) : (decodeWord w).isSome = true ↔
    w.toNat = 0 ∨ w.toNat = 0xEE ∨ w.toNat / 4096 = 2 ∨ (w.toNat / 4096 = 8 ∧ w.toNat % 16 = 4) := by
  have hc := decodeFields_c_toNat w
  have hx := decodeFields_x_toNat w
  have hy := decodeFields_y_toNat w
  have hd := decodeFields_d_toNat w
  rw [Option.isSome_iff_ne_none, ne_eq, decodeWord, select_eq_none_iff]
  simp only [← BitVec.toNat_inj, hc, hx, hy, hd, BitVec.reduceToNat, ne_eq]
  omega

end Sys2Proof

namespace Sys2Proof.Machine

/-- Every word of a class is legal or illegal. -/
theorem legalInClass_add_illegalInClass (c : Nat) : legalInClass c + illegalInClass c = 4096 := by
  have h := List.length_eq_countP_add_countP
    (fun k => (decodeWord (BitVec.ofNat 16 (c * 4096 + k))).isSome) (l := List.range 4096)
  rw [List.length_range] at h
  refine (congrArg (legalInClass c + ·) (List.countP_congr fun k _ => ?_)).trans h.symm
  simp

/-- The legal words of a class, counted by their last twelve bits. -/
theorem legalInClass_eq_count {c : Nat} (hc : c < 16) : legalInClass c =
    Nat.count (fun k => (c = 0 ∧ (k = 0 ∨ k = 0xEE)) ∨ c = 2 ∨ (c = 8 ∧ k % 16 = 4)) 4096 := by
  unfold legalInClass Nat.count
  refine List.countP_congr fun k hk => ?_
  have hk : k < 4096 := List.mem_range.mp hk
  have hword : (BitVec.ofNat 16 (c * 4096 + k)).toNat = c * 4096 + k := by
    rw [BitVec.toNat_ofNat]
    omega
  rw [decodeWord_isSome_iff_toNat, hword, decide_eq_true_iff]
  omega

/-- HALT and RETURN. -/
theorem legalInClass_zero : legalInClass 0x0 = 2 := by
  have hwords : (Finset.range 4096).filter (fun k => k = 0 ∨ k = 0xEE) = {0, 0xEE} := by
    ext k
    simp only [Finset.mem_filter, Finset.mem_range, Finset.mem_insert, Finset.mem_singleton]
    omega
  rw [legalInClass_eq_count (by decide)]
  simp [Nat.count_eq_card_filter_range, hwords]

/-- Every word is a CALL. -/
theorem legalInClass_two : legalInClass 0x2 = 4096 := by
  rw [legalInClass_eq_count (by decide)]
  simp

/-- The ADDs, one word in sixteen. -/
theorem legalInClass_eight : legalInClass 0x8 = 256 := by
  have hcount : Nat.count (· ≡ 4 [MOD 16]) 4096 = 256 := Nat.count_modEq_card 4096 (by decide) 4
  rw [legalInClass_eq_count (by decide), ← hcount, Nat.count_eq_card_filter_range,
    Nat.count_eq_card_filter_range]
  exact congrArg Finset.card (Finset.filter_congr fun k _ => by simp [Nat.ModEq])

theorem legalInClass_of_ne {c : Nat} (hc : c < 16) (h0 : c ≠ 0x0) (h2 : c ≠ 0x2) (h8 : c ≠ 0x8) :
    legalInClass c = 0 := by
  rw [legalInClass_eq_count hc]
  simp [h0, h2, h8]

/-- R58's column of legal words. -/
theorem legalInClass_eq {c : Nat} (hc : c < 16) :
    legalInClass c = if c = 0x0 then 2 else if c = 0x2 then 4096 else if c = 0x8 then 256 else 0 := by
  split_ifs with h0 h2 h8
  · exact h0 ▸ legalInClass_zero
  · exact h2 ▸ legalInClass_two
  · exact h8 ▸ legalInClass_eight
  · exact legalInClass_of_ne hc h0 h2 h8

/-- R58's column of illegal words is what the legal ones leave of a class. -/
theorem illegalInClass_eq (c : Nat) : illegalInClass c = 4096 - legalInClass c := by
  have := legalInClass_add_illegalInClass c
  omega

theorem sum_legalInClass : ((List.range 16).map legalInClass).sum = 4354 := by
  rw [List.map_congr_left fun c hc => legalInClass_eq (List.mem_range.mp hc)]
  decide

theorem sum_illegalInClass : ((List.range 16).map illegalInClass).sum = 61182 := by
  rw [List.map_congr_left fun c hc => (illegalInClass_eq c).trans
    (congrArg (4096 - ·) (legalInClass_eq (List.mem_range.mp hc)))]
  decide

/-- Settles O4: the legal words counted class by class, the illegal ones as what they leave of 4096. -/
theorem legalWordsPerClass : Obligations.LegalWordsPerClass := by
  refine ⟨legalInClass_zero, ?_, legalInClass_two, ?_, legalInClass_eight, ?_, ?_, sum_legalInClass,
    sum_illegalInClass, by decide, by decide⟩
  · rw [illegalInClass_eq, legalInClass_zero]
  · rw [illegalInClass_eq, legalInClass_two]
  · rw [illegalInClass_eq, legalInClass_eight]
  · intro c hc h0 h2 h8
    have hlegal := legalInClass_of_ne hc h0 h2 h8
    exact ⟨hlegal, by rw [illegalInClass_eq, hlegal]⟩

end Sys2Proof.Machine

namespace Sys2Proof.Machine

/-! ## 41_halt.md: HALT (R90) -/

/-- A mask of all bits leaves the whole word to compare, so HALT is one word. -/
theorem decodeWord_eq_halt_iff_eq_zero {w : Word} : decodeWord w = some .halt ↔ w = 0x0000 := by
  have hmask : w &&& 0xFFFF = w := BitVec.and_allOnes
  rw [decodeWord_eq_halt_iff, hmask]

theorem exec_halt (s : State) : exec .halt s = .next s.halt := rfl

/-- A state that fetches an instruction executes it on the post-fetch state (R70, R73). -/
theorem step_of_fetches {s : State} {i : Instr} (hf : s.Fetches) (hd : decodeWord s.wordAtPc = some i) :
    step s = exec i s.advance := by
  simp only [step, fetchStage_of_fetches hf, hd]

/-- Past the last address a fetch can start at, a running core takes the fetch fault (R71, R121). -/
theorem step_of_pc_gt {s : State} (hrun : s.status = .running) (hpc : 4094 < s.pc.toNat) :
    step s = .next (s.raise .outOfBoundsFetch) := by
  have hno : fetchOk s.pc ≠ true := fun hok => absurd ((fetchOk_iff s.pc).mp hok) hpc.not_ge
  rcases step_cases s with ⟨hs, -⟩ | ⟨-, -, hstep⟩ | ⟨-, hok, -, -⟩ | ⟨i, -, hok, -, -⟩
  · exact absurd hrun hs
  · exact hstep
  · exact absurd hok hno
  · exact absurd hok hno

/-- Two zero bytes at `PC` are the word of HALT. -/
theorem State.wordAtPc_eq_zero {s : State} (h0 : s.mem.byteAt s.pc.toNat = 0x00)
    (h1 : s.mem.byteAt (s.pc.toNat + 1) = 0x00) : s.wordAtPc = 0x0000 := by
  rw [State.wordAtPc, Memory.read16, h0, h1]
  rfl

/-- Settles O19: the word by the mask of its row, the step by its fetch of that word; a step whose fetch
fails ends FAULTED. -/
theorem haltStopsTheCore : Obligations.HaltStopsTheCore := by
  refine ⟨fun _ => decodeWord_eq_halt_iff_eq_zero, exec_halt, ?_, ?_⟩
  · intro s hrun hpc h0 h1
    have hdecode := decodeWord_eq_halt_iff_eq_zero.mpr (State.wordAtPc_eq_zero h0 h1)
    exact (step_of_fetches ⟨hrun, (fetchOk_iff s.pc).mpr hpc⟩ hdecode).trans (exec_halt s.advance)
  · intro s t hrun hpc hstep
    cases (step_of_pc_gt hrun hpc).symm.trans hstep
    simp

end Sys2Proof.Machine

namespace Sys2Proof.Machine

/-! ## 42_call_return.md: CALL and RETURN (R95 to R102) -/

/-! ### The two instructions -/

/-- The target of a CALL is its immediate, zero-extended (R54). -/
theorem addrOperand_toNat (nnn : Addr) : (addrOperand nnn).toNat = nnn.toNat :=
  BitVec.toNat_setWidth_of_le (by decide)

section
variable {s u : State} {v : Word}

theorem State.push_status (h : s.push v = some u) : u.status = s.status := by
  obtain ⟨_, rfl⟩ := State.push_eq_some h
  rfl

theorem State.push_sp (h : s.push v = some u) : u.sp.val = s.sp.val + 1 := by
  obtain ⟨_, rfl⟩ := State.push_eq_some h
  rfl

theorem State.pop_status (h : s.pop = some (v, u)) : u.status = s.status := by
  obtain ⟨_, _, rfl⟩ := State.pop_eq_some h
  rfl

/-- A pop does not look at `PC`. -/
theorem State.pop_setPc (s : State) (pc : Word) :
    (s.setPc pc).pop = s.pop.map fun p => (p.1, p.2.setPc pc) := by
  by_cases h : 0 < s.sp.val
  · rw [State.pop_of_pos h, State.pop_of_pos (s := s.setPc pc) h]
    rfl
  · have hzero : s.sp = 0 := Fin.ext (Nat.eq_zero_of_not_pos h)
    have hnone : (s.setPc pc).pop = none := State.pop_eq_none.mpr hzero
    rw [hnone, State.pop_eq_none.mpr hzero]
    rfl

/-- A pop of `n + 1` occupied entries answers entry `n` (R96). -/
theorem State.pop_of_sp_eq_succ {n : Nat} (h : s.sp.val = n + 1) (hn : n < 16) :
    s.pop = some (s.stack[n], { s with sp := ⟨n, by omega⟩ }) := by
  rw [State.pop_of_pos (by omega)]
  simp [h]

/-- CALL completes where its push does (R97). -/
theorem exec_call_of_push {nnn : Addr} (h : s.push s.pc = some u) :
    exec (.call nnn) s = .next (u.setPc (addrOperand nnn)) := by
  simp only [exec, execCall, h]

/-- CALL on a full stack raises StackOverflow (R99, R123). -/
theorem exec_call_of_full (nnn : Addr) (h : s.sp = 16) :
    exec (.call nnn) s = .next (s.raise .stackOverflow) := by
  simp only [exec, execCall, State.push_eq_none.mpr h]

/-- RETURN completes where its pop does (R98). -/
theorem exec_ret_of_pop (h : s.pop = some (v, u)) : exec .ret s = .next (u.setPc v) := by
  simp only [exec, execReturn, h]

/-- On a stack that is not full a push answers (R95). -/
theorem State.exists_push (v : Word) (h : s.sp ≠ 16) : ∃ u, s.push v = some u :=
  Option.ne_none_iff_exists'.mp fun hnone => h (State.push_eq_none.mp hnone)

end

/-! ### O27: the transfers of control (R102) -/

section
variable {s t : State}

/-- Where a completed execute stage leaves `PC`: at the target of a CALL, at the value a RETURN popped, and
for every other instruction where it was. -/
theorem exec_pc {i : Instr} (he : exec i s = .next t) (hok : t.status ≠ .faulted) :
    (∃ nnn, i = .call nnn ∧ t.pc = addrOperand nnn) ∨
    (∃ u, i = .ret ∧ s.pop = some (t.pc, u)) ∨
    ((∀ nnn, i ≠ .call nnn) ∧ i ≠ .ret ∧ t.pc = s.pc) := by
  rcases exec_cases he with ⟨rfl, rfl⟩ | ⟨nnn, u, rfl, -, rfl⟩ | ⟨nnn, -, -, rfl⟩ |
    ⟨v, u, rfl, hpop, rfl⟩ | ⟨-, -, rfl⟩ | ⟨x, y, rfl, rfl⟩
  · exact .inr (.inr ⟨nofun, nofun, rfl⟩)
  · exact .inl ⟨nnn, rfl, rfl⟩
  · exact absurd rfl hok
  · exact .inr (.inl ⟨u, rfl, hpop⟩)
  · exact absurd rfl hok
  · exact .inr (.inr ⟨nofun, nofun, rfl⟩)

/-- A step that fetches and does not fault executed the instruction at `PC`, on the post-fetch state. -/
theorem exists_instr_of_step (hf : s.Fetches) (hstep : step s = .next t) (hok : t.status ≠ .faulted) :
    ∃ i, decodeWord s.wordAtPc = some i ∧ exec i s.advance = .next t := by
  rcases step_cases s with ⟨hstop, -⟩ | ⟨-, hno, -⟩ | ⟨-, -, -, hs⟩ | ⟨i, -, -, hd, hs⟩
  · exact absurd hf.1 hstop
  · cases hno.symm.trans hf.2
  · cases hs.symm.trans hstep
    exact absurd rfl hok
  · exact ⟨i, hd, hs.symm.trans hstep⟩

end

/-- Settles O27: where the execute stage leaves `PC`, after the advance of the fetch; and a push or a pop
that answers is all that CALL and RETURN ask for. -/
theorem onlyCallAndReturnTransferControl : Obligations.OnlyCallAndReturnTransferControl := by
  refine ⟨?_, ?_, ?_⟩
  · intro s t hf hstep hok
    obtain ⟨i, hd, he⟩ := exists_instr_of_step hf hstep hok
    rcases exec_pc he hok with ⟨nnn, rfl, hpc⟩ | ⟨u, rfl, hpop⟩ | ⟨hcall, hret, hpc⟩
    · exact .inl ⟨nnn, hd, hpc ▸ addrOperand_toNat nnn⟩
    · rw [State.advance, State.pop_setPc, Option.map_eq_some_iff] at hpop
      obtain ⟨⟨v, u⟩, hpop, heq⟩ := hpop
      cases heq
      exact .inr (.inl ⟨u, hd, hpop⟩)
    · refine .inr (.inr ⟨fun nnn h => ?_, fun h => ?_, hpc ▸ State.advance_pc_toNat hf.2⟩)
      · exact hcall nnn (Option.some.inj (hd.symm.trans h))
      · exact hret (Option.some.inj (hd.symm.trans h))
  · intro s nnn hf hsp hd
    obtain ⟨u, hpush⟩ := State.exists_push (s := s.advance) s.advance.pc hsp
    exact ⟨_, (step_of_fetches hf hd).trans (exec_call_of_push hpush),
      (State.push_status hpush).trans hf.1, addrOperand_toNat nnn⟩
  · intro s u v hf hpop hd
    have hadv : s.advance.pop = some (v, u.setPc s.advance.pc) := by
      rw [State.advance, State.pop_setPc, hpop]
      rfl
    exact ⟨_, (step_of_fetches hf hd).trans (exec_ret_of_pop hadv), (State.pop_status hpop).trans hf.1, rfl⟩

/-! ### O52: nested CALLs and their RETURNs (R99 (e), R100 (d)) -/

section
variable {s t u : State}

/-- A CALL that completed at the head of a sequence pushed its call site, and the others follow it. -/
theorem State.callAll_cons_eq_some {site : Word} {nnn : Addr} {rest : List (Word × Addr)}
    (h : s.callAll ((site, nnn) :: rest) = some t) :
    ∃ u, (s.setPc site).push site = some u ∧ (u.setPc (addrOperand nnn)).callAll rest = some t := by
  by_cases hfull : s.sp = 16
  · have he := exec_call_of_full (s := s.setPc site) nnn hfull
    simp [State.callAll, he] at h
  · obtain ⟨u, hpush⟩ := State.exists_push (s := s.setPc site) site hfull
    simp only [State.callAll, exec_call_of_push hpush] at h
    split_ifs at h
    exact ⟨u, hpush, h⟩

theorem State.callAll_cons_of_push {site : Word} {nnn : Addr} (hrun : s.status = .running)
    (h : (s.setPc site).push site = some u) (rest : List (Word × Addr)) :
    s.callAll ((site, nnn) :: rest) = (u.setPc (addrOperand nnn)).callAll rest := by
  have hstatus : u.status = .running := (State.push_status h).trans hrun
  simp [State.callAll, exec_call_of_push h, hstatus]

theorem State.callAll_status {calls : List (Word × Addr)} (h : s.callAll calls = some t) :
    t.status = s.status := by
  induction calls generalizing s with
  | nil => exact Option.some.inj h ▸ rfl
  | cons call rest ih =>
    obtain ⟨u, hpush, hrest⟩ := State.callAll_cons_eq_some h
    have hu := State.push_status hpush
    exact (ih hrest).trans hu

/-- Each CALL occupies one entry. -/
theorem State.callAll_sp {calls : List (Word × Addr)} (h : s.callAll calls = some t) :
    t.sp.val = s.sp.val + calls.length := by
  induction calls generalizing s with
  | nil => exact Option.some.inj h ▸ rfl
  | cons call rest ih =>
    obtain ⟨u, hpush, hrest⟩ := State.callAll_cons_eq_some h
    have hu := State.push_sp hpush
    have ht := ih hrest
    simp only [State.setPc_sp, List.length_cons] at hu ht ⊢
    omega

/-- The last CALL leaves `PC` at its target. -/
theorem State.callAll_pc {calls : List (Word × Addr)} {site : Word} {nnn : Addr}
    (h : s.callAll calls = some t) (hlast : calls.getLast? = some (site, nnn)) : t.pc = addrOperand nnn := by
  induction calls generalizing s with
  | nil => cases hlast
  | cons call rest ih =>
    obtain ⟨u, -, hrest⟩ := State.callAll_cons_eq_some h
    cases rest with
    | nil =>
      cases hlast
      exact Option.some.inj hrest ▸ rfl
    | cons next rest => exact ih hrest (List.getLast?_cons_cons ▸ hlast)

/-- CALLs that fit into the free entries complete. -/
theorem State.exists_callAll {calls : List (Word × Addr)} (hrun : s.status = .running)
    (hfit : s.sp.val + calls.length ≤ 16) : ∃ t, s.callAll calls = some t := by
  induction calls generalizing s with
  | nil => exact ⟨s, rfl⟩
  | cons call rest ih =>
    obtain ⟨site, nnn⟩ := call
    rw [List.length_cons] at hfit
    have hroom : s.sp ≠ 16 := fun hfull => by simp [hfull] at hfit
    obtain ⟨u, hpush⟩ := State.exists_push (s := s.setPc site) site hroom
    have hstatus := (State.push_status hpush).trans hrun
    have hsp := State.push_sp hpush
    rw [State.callAll_cons_of_push hrun hpush]
    exact ih hstatus (by simp only [State.setPc_sp] at hsp ⊢; omega)

/-- The two states differ at most in `PC` and in entries `s` does not occupy: what is left of a call once it
has returned, since a pop keeps the entry it frees. -/
def State.AgreeButPcAndUnoccupied (s u : State) : Prop :=
  ∃ pc stack, u = { s with pc := pc, stack := stack } ∧
    ∀ i : Fin 16, i.val < s.sp.val → stack[i] = s.stack[i]

theorem State.agreeButPcAndUnoccupied_refl (s : State) : s.AgreeButPcAndUnoccupied s :=
  ⟨s.pc, s.stack, rfl, fun _ _ => rfl⟩

theorem State.agreeButPcAndUnoccupied_setPc {pc : Word} :
    (s.setPc pc).AgreeButPcAndUnoccupied u ↔ s.AgreeButPcAndUnoccupied u := Iff.rfl

theorem State.AgreeButPcAndUnoccupied.status (h : s.AgreeButPcAndUnoccupied u) : u.status = s.status := by
  obtain ⟨_, _, rfl, -⟩ := h
  rfl

/-- A RETURN undoes a push: from a state that agrees with the one pushed, it goes to the value pushed and
agrees with the state before the push. -/
theorem exec_ret_of_agree_push {v : Word} (hpush : s.push v = some t) (hagree : t.AgreeButPcAndUnoccupied u) :
    ∃ w, exec .ret u = .next w ∧ w.pc = v ∧ s.AgreeButPcAndUnoccupied w := by
  obtain ⟨hlt, rfl⟩ := State.push_eq_some hpush
  obtain ⟨pc, stack, rfl, hocc⟩ := hagree
  refine ⟨_, exec_ret_of_pop (State.pop_of_sp_eq_succ rfl hlt), ?_, _, stack, rfl, fun i hi => ?_⟩
  · have htop := hocc ⟨s.sp.val, hlt⟩ (Nat.lt_succ_self _)
    simpa using htop
  · have hbelow := hocc i (Nat.lt_succ_of_lt hi)
    simpa [Vector.getElem_set, hi.ne'] using hbelow

/-- One RETURN more after `n` that completed. -/
theorem State.returnAll_succ {n : Nat} {sites : List Word} {v : State}
    (h : s.returnAll n = some (sites, t)) (hret : exec .ret t = .next v) (hok : v.status ≠ .faulted) :
    s.returnAll (n + 1) = some (sites ++ [v.pc], v) := by
  induction n generalizing s sites with
  | zero =>
    cases h
    simp [State.returnAll, hret, hok]
  | succ n ih =>
    rw [State.returnAll] at h ⊢
    split at h
    case h_1 w hw =>
      split at h
      case isTrue => cases h
      case isFalse hwok =>
        obtain ⟨⟨sites, t⟩, hrest, heq⟩ := Option.map_eq_some_iff.mp h
        cases heq
        simp [hwok, ih hrest]
    all_goals cases h

/-- As many RETURNs as CALLs go back to the call sites in reverse, and leave what the CALLs found. -/
theorem State.returnAll_after_callAll {calls : List (Word × Addr)} (hrun : s.status = .running)
    (h : s.callAll calls = some t) :
    ∃ u, t.returnAll calls.length = some ((calls.map Prod.fst).reverse, u) ∧ s.AgreeButPcAndUnoccupied u := by
  induction calls generalizing s with
  | nil =>
    cases h
    exact ⟨_, rfl, State.agreeButPcAndUnoccupied_refl _⟩
  | cons call rest ih =>
    obtain ⟨site, nnn⟩ := call
    obtain ⟨p, hpush, hrest⟩ := State.callAll_cons_eq_some h
    have hstatus := (State.push_status hpush).trans hrun
    obtain ⟨w, hinner, hagree⟩ := ih (s := p.setPc (addrOperand nnn)) hstatus hrest
    obtain ⟨u, hret, hpc, hback⟩ := exec_ret_of_agree_push hpush (State.agreeButPcAndUnoccupied_setPc.mp hagree)
    rw [State.agreeButPcAndUnoccupied_setPc] at hback
    have hok : u.status ≠ .faulted := fun hfault => by simp [hback.status, hrun] at hfault
    have hreturns := State.returnAll_succ hinner hret hok
    exact ⟨u, by simpa [hpc] using hreturns, hback⟩

end

/-- Settles O52: CALLs that fit complete and their RETURNs undo them one by one; CALLs that complete occupy
an entry each, so those that do not fit do not complete. -/
theorem nestedCallsReturnLastInFirstOut : Obligations.NestedCallsReturnLastInFirstOut := by
  intro s calls hrun
  refine ⟨fun hfit => ?_, fun hlong => ?_⟩
  · obtain ⟨t, hcalls⟩ := State.exists_callAll hrun hfit
    have hsp := State.callAll_sp hcalls
    obtain ⟨u, hreturns, pc, stack, rfl, -⟩ := State.returnAll_after_callAll hrun hcalls
    refine ⟨t, _, hcalls, (State.callAll_status hcalls).trans hrun, hsp, ?_, hreturns, hrun, rfl, rfl, rfl, ?_⟩
    · exact fun site nnn hlast => State.callAll_pc hcalls hlast ▸ addrOperand_toNat nnn
    · exact fun hfull nnn => exec_call_of_full nnn (Fin.ext (hsp.trans hfull))
  · refine Option.eq_none_iff_forall_ne_some.mpr fun t hcalls => ?_
    have hsp := State.callAll_sp hcalls
    have := t.sp.isLt
    omega

end Sys2Proof.Machine

namespace Sys2Proof.Machine

/-! ## 43_add.md: ADD (R105 to R110) -/

/-! ### The arithmetic of ADD -/

section
variable (a b : Byte)

/-- Nine bits hold the true sum, with no carry-in. -/
theorem sum9_toNat : (sum9 a b).toNat = a.toNat + b.toNat := by
  rw [sum9, BitVec.toNat_add, BitVec.toNat_setWidth_of_le (by decide),
    BitVec.toNat_setWidth_of_le (by decide), Nat.mod_eq_of_lt (by omega)]

theorem sumByte_toNat : (sumByte a b).toNat = (a.toNat + b.toNat) % 256 := by
  rw [sumByte, BitVec.extractLsb'_toNat, sum9_toNat, Nat.shiftRight_zero]

theorem carryByte_toNat : (carryByte a b).toNat = (a.toNat + b.toNat) / 256 := by
  rw [carryByte, BitVec.toNat_setWidth_of_le (by decide), BitVec.extractLsb'_toNat, sum9_toNat,
    Nat.shiftRight_eq_div_pow]
  omega

theorem carryByte_toNat_le_one : (carryByte a b).toNat ≤ 1 := by
  rw [carryByte_toNat]
  omega

theorem carryByte_eq_ite : carryByte a b = if a.toNat + b.toNat ≥ 256 then 1 else 0 := by
  apply BitVec.eq_of_toNat_eq
  rw [carryByte_toNat]
  split
  · show _ = 1
    omega
  · show _ = 0
    omega

end

/-! ### What changes the registers -/

section
variable {s t u : State}

/-- ADD completes in every state, with the sum written before the carry (R105). -/
theorem exec_add (x y : RegIdx) (s : State) :
    exec (.add x y) s = .next ((s.setReg x (sumByte (s.getReg x) (s.getReg y))).setFlag
      (carryByte (s.getReg x) (s.getReg y))) := rfl

/-- An ADD leaves its carry in the flag register, whatever its destination (R105, R106). -/
theorem getReg_flag_of_exec_add {x y : RegIdx} (he : exec (.add x y) s = .next t) :
    t.getReg 0xF = carryByte (s.getReg x) (s.getReg y) := by
  cases (exec_add x y s).symm.trans he
  exact State.getReg_setFlag_same _ _

theorem getReg_flag_le_one_of_exec_add {x y : RegIdx} (he : exec (.add x y) s = .next t) :
    (t.getReg 0xF).toNat ≤ 1 := by
  rw [getReg_flag_of_exec_add he]
  exact carryByte_toNat_le_one _ _

theorem State.getReg_of_regs_eq (h : t.regs = s.regs) (i : RegIdx) : t.getReg i = s.getReg i := by
  rw [State.getReg, State.getReg, getElem_congr_coll h]

theorem State.push_regs {v : Word} (h : s.push v = some u) : u.regs = s.regs := by
  obtain ⟨_, rfl⟩ := State.push_eq_some h
  rfl

theorem State.pop_regs {v : Word} (h : s.pop = some (v, u)) : u.regs = s.regs := by
  obtain ⟨_, _, rfl⟩ := State.pop_eq_some h
  rfl

/-- ADD alone writes registers (R13). -/
theorem exec_regs_or_add {i : Instr} (he : exec i s = .next t) :
    t.regs = s.regs ∨ ∃ x y, i = .add x y := by
  rcases exec_cases he with ⟨-, rfl⟩ | ⟨nnn, u, -, hpush, rfl⟩ | ⟨nnn, -, -, rfl⟩ |
    ⟨v, u, -, hpop, rfl⟩ | ⟨-, -, rfl⟩ | ⟨x, y, hi, -⟩
  · exact .inl rfl
  · exact .inl ((u.setPc_regs _).trans (State.push_regs hpush))
  · exact .inl rfl
  · exact .inl ((u.setPc_regs v).trans (State.pop_regs hpop))
  · exact .inl rfl
  · exact .inr ⟨x, y, hi⟩

/-- A step leaves the registers alone unless it executes an ADD. -/
theorem step_regs_or_add (hstep : step s = .next t) :
    t.regs = s.regs ∨
    ∃ x y, decodeWord s.wordAtPc = some (.add x y) ∧ exec (.add x y) s.advance = .next t := by
  rcases step_cases s with ⟨-, hs⟩ | ⟨-, -, hs⟩ | ⟨-, -, -, hs⟩ | ⟨i, -, -, hd, hs⟩
  · cases hs.symm.trans hstep
    exact .inl rfl
  · cases hs.symm.trans hstep
    exact .inl rfl
  · cases hs.symm.trans hstep
    exact .inl rfl
  · have he := hs.symm.trans hstep
    rcases exec_regs_or_add he with hregs | ⟨x, y, rfl⟩
    · exact .inl hregs
    · exact .inr ⟨x, y, hd, he⟩

end

/-! ### The obligations -/

/-- Settles O30: the byte of the true sum stays in `r[x]`, which the flag write passes over. -/
theorem addIsUnsignedModulo256 : Obligations.AddIsUnsignedModulo256 := by
  refine ⟨fun a b => ⟨sumByte_toNat a b, carryByte_eq_ite a b⟩, fun x y s hx => ?_⟩
  refine ⟨_, exec_add x y s, ?_, ?_, rfl, rfl⟩
  · rw [State.getReg_setFlag_other _ _ hx, State.getReg_setReg_same, sumByte_toNat]
  · rw [State.getReg_setFlag_same, carryByte_eq_ite]

/-- Settles O32: a step either leaves the registers alone or executes an ADD, whose carry is a bit. -/
theorem flagRegisterStaysABit : Obligations.FlagRegisterStaysABit := by
  refine ⟨fun _ _ _ _ he => getReg_flag_le_one_of_exec_add he, fun s t hstep hbit => ?_,
    fun s t hstep hno => ?_⟩
  · rcases step_regs_or_add hstep with hregs | ⟨x, y, -, he⟩
    · rwa [State.getReg_of_regs_eq hregs]
    · exact getReg_flag_le_one_of_exec_add he
  · rcases step_regs_or_add hstep with hregs | ⟨x, y, hd, -⟩
    · exact State.getReg_of_regs_eq hregs 0xF
    · exact absurd hd (hno x y)

end Sys2Proof.Machine

namespace Sys2Proof

/-! ## The two bytes of a word as numbers (R32, R33) -/

theorem hiByte_toNat (w : Word) : (hiByte w).toNat = w.toNat / 256 := by
  have hw := w.isLt
  rw [hiByte, BitVec.extractLsb'_toNat, Nat.shiftRight_eq_div_pow]
  omega

theorem loByte_toNat (w : Word) : (loByte w).toNat = w.toNat % 256 := by
  rw [loByte, BitVec.extractLsb'_toNat, Nat.shiftRight_zero]

end Sys2Proof

namespace Sys2Proof.Machine

/-! ## 70_reset_and_hazards.md: the host's load port (R153) -/

section
variable {m : Memory} {a : Addr}

theorem Memory.byteAt_write_same (h : m.wf) (a : Addr) (v : Byte) : (m.write a v).byteAt a.toNat = v :=
  Memory.byteAt_insert_same h a.toNat v

theorem Memory.byteAt_write_other (m : Memory) (v : Byte) {b : Nat} (h : b ≠ a.toNat) :
    (m.write a v).byteAt b = m.byteAt b :=
  Memory.byteAt_insert_other m v h

/-- The address after one a word can be placed at does not wrap. -/
theorem addr_add_one_toNat (ha : a.toNat ≤ 4094) : (a + 1).toNat = a.toNat + 1 :=
  BitVec.toNat_add_of_lt (Nat.add_lt_add_right (Nat.lt_succ_of_le ha) 1)

/-- The second write of a word passes over the byte of the first. -/
theorem Memory.byteAt_writeWord_high (h : m.wf) (ha : a.toNat ≤ 4094) (w : Word) :
    (m.writeWord a w).byteAt a.toNat = hiByte w := by
  have hne : a.toNat ≠ (a + 1).toNat := by rw [addr_add_one_toNat ha]; omega
  rw [Memory.writeWord, Memory.byteAt_write_other _ _ hne, Memory.byteAt_write_same h]

theorem Memory.byteAt_writeWord_low (h : m.wf) (ha : a.toNat ≤ 4094) (w : Word) :
    (m.writeWord a w).byteAt (a.toNat + 1) = loByte w := by
  rw [← addr_add_one_toNat ha]
  exact Memory.byteAt_write_same (Memory.write_wf h a _) (a + 1) _

theorem Memory.byteAt_writeWord_other (m : Memory) (ha : a.toNat ≤ 4094) (w : Word) {b : Nat}
    (hb : b ≠ a.toNat) (hb1 : b ≠ a.toNat + 1) : (m.writeWord a w).byteAt b = m.byteAt b := by
  rw [← addr_add_one_toNat ha] at hb1
  rw [Memory.writeWord, Memory.byteAt_write_other _ _ hb1, Memory.byteAt_write_other _ _ hb]

/-- In the pre-run phase a write of the load port is a move (R152, R153). -/
theorem Session.transact_writeMem {c : Session} (hphase : c.phase = .preRun) (a : Addr) (v : Byte) :
    c.transact (.writeMem a v) = some { c with core := { c.core with mem := c.core.mem.write a v } } := by
  rw [Session.transact, Session.preRunWrite, hphase]
  rfl

theorem Session.perform_cons {c d : Session} {t : Transaction} (h : c.transact t = some d)
    (ts : List Transaction) : c.perform (t :: ts) = d.perform ts := by
  rw [Session.perform, h]

/-- The two writes of a word are `Memory.writeWord` on the memory. -/
theorem Session.perform_wordWrites {c : Session} (hphase : c.phase = .preRun) (a : Addr) (w : Word) :
    c.perform (wordWrites a w) =
      some { c with core := { c.core with mem := c.core.mem.writeWord a w } } := by
  have hhigh := Session.transact_writeMem hphase a (hiByte w)
  have hlow := Session.transact_writeMem
    (c := { c with core := { c.core with mem := c.core.mem.write a (hiByte w) } }) hphase (a + 1) (loByte w)
  exact (Session.perform_cons hhigh _).trans (Session.perform_cons hlow [])

end

/-- Settles O45: a write of the port is a write of the memory, and the two writes of a word are the memory's
write of that word. -/
theorem hostLoadPortWritesOneByte : Obligations.HostLoadPortWritesOneByte := by
  refine ⟨fun c a v hphase hwf => ?_, fun c a w hphase hwf ha => ?_⟩
  · exact ⟨_, Session.transact_writeMem hphase a v, Memory.byteAt_write_same hwf a v,
      fun b hb => Memory.byteAt_write_other _ v hb⟩
  · refine ⟨_, Session.perform_wordWrites hphase a w, ?_, ?_, Memory.read16_writeWord hwf ha w,
      fun b hb hb1 => Memory.byteAt_writeWord_other _ ha w hb hb1⟩
    · rw [Memory.byteAt_writeWord_high hwf ha, hiByte_toNat]
    · rw [Memory.byteAt_writeWord_low hwf ha, loByte_toNat]

end Sys2Proof.Machine

namespace Sys2Proof

/-! ## 30_encoding.md: encoding and decoding undo each other (R50 to R56) -/

section
variable {w : Word}

theorem decodeWord_eq_ret_iff_eq : decodeWord w = some .ret ↔ w = 0x00EE := by
  have hmask : w &&& 0xFFFF = w := BitVec.and_allOnes
  rw [decodeWord_eq_ret_iff, hmask]

/-- The words of CALL as numbers (R61's table). -/
theorem decodeWord_eq_call_iff_toNat {nnn : Addr} :
    decodeWord w = some (.call nnn) ↔ w.toNat = 0x2000 + nnn.toNat := by
  have hw := toNat_eq_class_add_nnn w
  have hfield := (decodeFields w).nnn.isLt
  have hnnn := nnn.isLt
  rw [decodeWord, select_eq_call_iff]
  simp only [← BitVec.toNat_inj, BitVec.reduceToNat]
  omega

/-- The words of ADD as numbers (R61's table). -/
theorem decodeWord_eq_add_iff_toNat {x y : RegIdx} :
    decodeWord w = some (.add x y) ↔ w.toNat = 0x8004 + x.toNat * 256 + y.toNat * 16 := by
  have hw := toNat_eq_class_add_nnn w
  have hdigits := decodeFields_nnn_eq_digits w
  rw [decodeWord, select_eq_add_iff]
  simp only [← BitVec.toNat_inj, BitVec.reduceToNat]
  omega

/-- Every instruction decodes from its word: the word selects the row, and its fields are the operands. -/
theorem decodeWord_encode (i : Instr) : decodeWord (encode i) = some i := by
  cases i with
  | halt => rfl
  | ret => rfl
  | call nnn =>
    refine decodeWord_eq_call_iff.mpr ⟨of_decide_eq_true (Laws.RowMatch.call nnn), ?_⟩
    ext l hl
    interval_cases l <;> simp [decodeFields, encode]
  | add x y =>
    refine decodeWord_eq_add_iff.mpr ⟨of_decide_eq_true (Laws.RowMatch.add x y), ?_, ?_⟩
    · ext l hl
      interval_cases l <;> simp [decodeFields, encode]
    · ext l hl
      interval_cases l <;> simp [decodeFields, encode]

theorem encode_call_toNat (nnn : Addr) : (encode (.call nnn)).toNat = 0x2000 + nnn.toNat :=
  decodeWord_eq_call_iff_toNat.mp (decodeWord_encode _)

theorem encode_add_toNat (x y : RegIdx) :
    (encode (.add x y)).toNat = 0x8004 + x.toNat * 256 + y.toNat * 16 :=
  decodeWord_eq_add_iff_toNat.mp (decodeWord_encode _)

/-- No two words decode to one instruction: a word that decodes is the encoding of what it decodes to. -/
theorem encode_of_decodeWord {i : Instr} (h : decodeWord w = some i) : encode i = w := by
  cases i with
  | halt => exact (Machine.decodeWord_eq_halt_iff_eq_zero.mp h).symm
  | ret => exact (decodeWord_eq_ret_iff_eq.mp h).symm
  | call nnn =>
    exact BitVec.eq_of_toNat_eq ((encode_call_toNat nnn).trans (decodeWord_eq_call_iff_toNat.mp h).symm)
  | add x y =>
    exact BitVec.eq_of_toNat_eq ((encode_add_toNat x y).trans (decodeWord_eq_add_iff_toNat.mp h).symm)

end

/-! ### The decoder of bytes -/

section
variable {b0 b1 : Byte} {bytes rest : List Byte} {i : Instr}

theorem decode_cons_cons_eq_ok_iff :
    decode (b0 :: b1 :: bytes) = .ok (i, rest) ↔ decodeWord (joinBytes b0 b1) = some i ∧ bytes = rest := by
  rw [decode_cons_cons]
  cases decodeWord (joinBytes b0 b1) <;> simp

theorem decode_cons_cons_eq_error_iff {e : Rejected} :
    decode (b0 :: b1 :: rest) = .error e ↔
      decodeWord (joinBytes b0 b1) = none ∧ .unimplementedOpcode (joinBytes b0 b1) = e := by
  rw [decode_cons_cons]
  cases decodeWord (joinBytes b0 b1) <;> simp

theorem decode_of_length_lt (h : bytes.length < 2) : decode bytes = .error .tooShort := by
  match bytes, h with
  | [], _ => rfl
  | [_], _ => rfl

/-- Two bytes or more are taken apart into the first two and the rest. -/
theorem exists_eq_cons_cons (h : ¬ bytes.length < 2) : ∃ b0 b1 rest, bytes = b0 :: b1 :: rest := by
  match bytes, h with
  | [], h => exact absurd Nat.two_pos h
  | [_], h => exact absurd Nat.one_lt_two h
  | b0 :: b1 :: rest, _ => exact ⟨b0, b1, rest, rfl⟩

theorem encodeBytes_of_decodeWord (h : decodeWord (joinBytes b0 b1) = some i) : encodeBytes i = [b0, b1] := by
  rw [encodeBytes, encode_of_decodeWord h, wordBytes, hiByte_joinBytes, loByte_joinBytes]

theorem decode_encodeBytes_append (i : Instr) (rest : List Byte) :
    decode (encodeBytes i ++ rest) = .ok (i, rest) := by
  refine decode_cons_cons_eq_ok_iff.mpr ⟨?_, rfl⟩
  rw [joinBytes_hiByte_loByte, decodeWord_encode]

/-- Decoding takes exactly the two bytes of the encoding. -/
theorem eq_encodeBytes_append_of_decode (h : decode bytes = .ok (i, rest)) :
    bytes = encodeBytes i ++ rest := by
  by_cases hshort : bytes.length < 2
  · cases (decode_of_length_lt hshort).symm.trans h
  · obtain ⟨b0, b1, bytes, rfl⟩ := exists_eq_cons_cons hshort
    obtain ⟨hword, rfl⟩ := decode_cons_cons_eq_ok_iff.mp h
    rw [encodeBytes_of_decodeWord hword]
    rfl

end

/-- Settles O5: the round trip of words by the rows' operands and the words as numbers, that of bytes by the
word the two bytes form. -/
theorem decodeAndEncodeAgree : Obligations.DecodeAndEncodeAgree :=
  ⟨decodeWord_encode, fun _ _ => encode_of_decodeWord, decode_encodeBytes_append,
    fun _ _ _ => eq_encodeBytes_append_of_decode⟩

/-- Settles O6: two bytes or more decode by their first word alone. -/
theorem decoderRejectsByName : Obligations.DecoderRejectsByName := by
  refine ⟨fun bytes => ⟨fun h => ?_, decode_of_length_lt⟩, fun b0 b1 rest => ?_⟩
  · by_contra hlong
    obtain ⟨b0, b1, rest, rfl⟩ := exists_eq_cons_cons hlong
    cases (decode_cons_cons_eq_error_iff.mp h).2
  · exact (decode_cons_cons_eq_error_iff.trans (and_iff_left rfl)).symm

/-- Settles O7, by evaluation: the statement is about eleven written-out words. -/
theorem wordsOfTheSpecDecode : Obligations.WordsOfTheSpecDecode := by
  unfold Obligations.WordsOfTheSpecDecode
  decide

end Sys2Proof

namespace Sys2Proof

/-! ## 30_encoding.md: the written form (R61) -/

/-- A written form with its operands in range stands for the instruction with those operands. -/
theorem Written.toInstr_call {n : Nat} (h : n ≤ 4095) :
    (Written.call n).toInstr = some (.call (BitVec.ofNat 12 n)) := by
  simp [Written.toInstr, Written.wf, h]

theorem Written.toInstr_add {x y : Nat} (hx : x ≤ 15) (hy : y ≤ 15) :
    (Written.add x y).toInstr = some (.add (BitVec.ofNat 4 x) (BitVec.ofNat 4 y)) := by
  simp [Written.toInstr, Written.wf, hx, hy]

theorem Written.toInstr_eq_none {u : Written} (h : u.wf = false) : u.toInstr = none := by
  simp [Written.toInstr, h]

theorem Written.exists_toInstr_word {u : Written} (h : u.wf = true) :
    ∃ i, u.toInstr = some i ∧ (encode i).toNat = u.word := by
  cases u with
  | halt => exact ⟨.halt, rfl, rfl⟩
  | ret => exact ⟨.ret, rfl, rfl⟩
  | call n =>
    have hn : n ≤ 4095 := of_decide_eq_true h
    refine ⟨_, Written.toInstr_call hn, ?_⟩
    rw [encode_call_toNat, BitVec.toNat_ofNat, Nat.mod_eq_of_lt (by omega), Written.word]
  | add x y =>
    obtain ⟨hx, hy⟩ : x ≤ 15 ∧ y ≤ 15 := by simpa [Written.wf] using h
    refine ⟨_, Written.toInstr_add hx hy, ?_⟩
    rw [encode_add_toNat, BitVec.toNat_ofNat, BitVec.toNat_ofNat, Nat.mod_eq_of_lt (by omega),
      Nat.mod_eq_of_lt (by omega), Written.word, Nat.shiftLeft_eq, Nat.shiftLeft_eq]

/-- Settles O8: the words as numbers, for operands in range; else the range check answers none. -/
theorem writtenFormsHaveTheirWords : Obligations.WrittenFormsHaveTheirWords := by
  refine ⟨fun u h => Written.exists_toInstr_word h, fun n hn => ?_, fun x y hxy => ?_⟩
  · exact Written.toInstr_eq_none (decide_eq_false hn.not_ge)
  · refine Written.toInstr_eq_none ?_
    simp only [Written.wf, Bool.and_eq_false_iff, decide_eq_false_iff_not]
    omega

/-! ### The line written for an instruction -/

theorem hexDigit_hexChar : ∀ n : Nibble, hexDigit (hexChar n) = some n.toNat := by decide

theorem readRegister_registerName : ∀ i : RegIdx, readRegister (registerName i) = some i.toNat := by decide

theorem comma_notMem_registerName : ∀ i : RegIdx, ',' ∉ registerName i := by decide

/-- A line is split at its first comma. -/
theorem splitComma_append {before : List Char} (h : ',' ∉ before) (after : List Char) :
    splitComma (before ++ ',' :: after) = some (before, after) := by
  induction before with
  | nil => rfl
  | cons ch before ih =>
    obtain ⟨hch, hrest⟩ := not_or.mp (List.mem_cons.not.mp h)
    simp [splitComma, Ne.symm hch, ih hrest]

/-- Three hexadecimal digits are read as the number of their digits. -/
theorem readNumber_hexChars (a b c : Nibble) :
    readNumber ['0', 'x', hexChar a, hexChar b, hexChar c] =
      some (a.toNat * 256 + b.toNat * 16 + c.toNat) := by
  simp only [readNumber, digitsFrom, hexDigit_hexChar]
  congr 1
  omega

/-- An address is the number of its three nibbles. -/
theorem addr_toNat_eq_digits (nnn : Addr) : nnn.toNat =
    (nnn.extractLsb' 8 4).toNat * 256 + (nnn.extractLsb' 4 4).toNat * 16 + (nnn.extractLsb' 0 4).toNat := by
  have := nnn.isLt
  simp only [BitVec.extractLsb'_toNat, Nat.shiftRight_eq_div_pow]
  omega

theorem readWritten_disassemble_call (nnn : Addr) :
    readWritten (disassemble (.call nnn)) = some (.call nnn.toNat) := by
  simp only [disassemble, readWritten, readNumber_hexChars, ← addr_toNat_eq_digits, Option.map_some]

theorem readWritten_disassemble_add (x y : RegIdx) :
    readWritten (disassemble (.add x y)) = some (.add x.toNat y.toNat) := by
  have hsplit : splitComma (registerName x ++ ([','] ++ registerName y)) = _ :=
    splitComma_append (comma_notMem_registerName x) (registerName y)
  simp only [disassemble, List.append_assoc, List.cons_append, List.nil_append] at hsplit ⊢
  simp only [readWritten, hsplit, readRegister_registerName]

/-- Settles O9: a line is read back as the written form with the instruction's operands, which are in
range. -/
theorem assemblyLinesReadBack : Obligations.AssemblyLinesReadBack := by
  intro i
  cases i with
  | halt => rfl
  | ret => rfl
  | call nnn =>
    rw [assemble, readWritten_disassemble_call]
    simp [Written.toInstr_call (Nat.le_of_lt_succ nnn.isLt)]
  | add x y =>
    rw [assemble, readWritten_disassemble_add]
    simp [Written.toInstr_add (Nat.le_of_lt_succ x.isLt) (Nat.le_of_lt_succ y.isLt)]

end Sys2Proof

namespace Sys2Proof.Machine

/-! ## 40_step_sequencer.md, 60_exceptions.md: one equation for each way a step ends (R70 to R76) -/

section
variable {s t u : State} {v : Word}

theorem State.fetches_of_pc_le (hrun : s.status = .running) (hpc : s.pc.toNat ≤ 4094) : s.Fetches :=
  ⟨hrun, (fetchOk_iff s.pc).mpr hpc⟩

theorem step_of_stopped (h : s.status ≠ .running) : step s = .next s := by
  rcases step_cases s with ⟨-, hs⟩ | ⟨hrun, -⟩ | ⟨hrun, -⟩ | ⟨i, hrun, -⟩
  · exact hs
  · exact absurd hrun h
  · exact absurd hrun h
  · exact absurd hrun h

theorem step_of_illegal (hf : s.Fetches) (hd : decodeWord s.wordAtPc = none) :
    step s = .next (s.advance.raise (.unimplementedOpcode s.wordAtPc)) := by
  simp only [step, fetchStage_of_fetches hf, hd, dispatchIllegal]

/-- RETURN on an empty stack raises StackUnderflow (R100, R124). -/
theorem exec_ret_of_empty (h : s.sp = 0) : exec .ret s = .next (s.raise .stackUnderflow) := by
  simp only [exec, execReturn, State.pop_eq_none.mpr h]

/-- On a stack that is not empty a pop answers (R96). -/
theorem State.exists_pop (h : s.sp ≠ 0) : ∃ v u, s.pop = some (v, u) := by
  obtain ⟨⟨v, u⟩, hpop⟩ := Option.ne_none_iff_exists'.mp fun hnone => h (State.pop_eq_none.mp hnone)
  exact ⟨v, u, hpop⟩

theorem State.sp_ne_of_push (h : s.push v = some u) : s.sp ≠ 16 := fun hfull => by
  cases (State.push_eq_none.mpr hfull).symm.trans h

theorem State.sp_ne_of_pop (h : s.pop = some (v, u)) : s.sp ≠ 0 := fun hempty => by
  cases (State.pop_eq_none.mpr hempty).symm.trans h

/-- A push and a pop leave `STATUS` and the fault record alone. -/
theorem State.push_record (h : s.push v = some u) :
    u.status = s.status ∧ u.cause = s.cause ∧ u.causeWord = s.causeWord := by
  obtain ⟨_, rfl⟩ := State.push_eq_some h
  exact ⟨rfl, rfl, rfl⟩

theorem State.pop_record (h : s.pop = some (v, u)) :
    u.status = s.status ∧ u.cause = s.cause ∧ u.causeWord = s.causeWord := by
  obtain ⟨_, _, rfl⟩ := State.pop_eq_some h
  exact ⟨rfl, rfl, rfl⟩

/-- A running core with a well-formed fault record has no fault recorded. -/
theorem State.cause_of_running (hrecord : s.FaultRecordOk) (hrun : s.status = .running) :
    s.cause = .noCause := by
  by_contra hcause
  cases hrun.symm.trans (hrecord.1.mpr hcause)

end

/-- Settles O40: the step lemma of the invariant, which O54 and O41 rest on too. -/
theorem everyStepKeepsTheInvariant : Obligations.EveryStepKeepsTheInvariant :=
  fun _ _ => step_keeps_inv

/-- Settles O11: a state that fetches advances without wrapping. -/
theorem fetchAdvancesPcByTwo : Obligations.FetchAdvancesPcByTwo := by
  intro s hrun hpc
  have hf := State.fetches_of_pc_le hrun hpc
  exact ⟨_, _, fetchStage_of_fetches hf, rfl, State.advance_pc_toNat hf.2, State.advance_pc_le hf.2⟩

/-- Settles O12: the word of the two bytes decodes as the bytes do. -/
theorem stepRunsTheDecodedInstruction : Obligations.StepRunsTheDecodedInstruction := by
  intro s i hrun hpc _ hdecode
  have hword := (decode_cons_cons_eq_ok_iff.mp hdecode).1
  exact step_of_fetches (State.fetches_of_pc_le hrun hpc) hword

/-- Settles O13. -/
theorem fetchPastMemoryFaults : Obligations.FetchPastMemoryFaults :=
  fun _ => step_of_pc_gt

/-- Settles O14: a word that matches no row decodes to none. -/
theorem illegalWordFaults : Obligations.IllegalWordFaults := by
  intro s hrun hpc hhalt hret hcall hadd
  have hmask : s.wordAtPc &&& 0xFFFF = s.wordAtPc := BitVec.and_allOnes
  refine step_of_illegal (State.fetches_of_pc_le hrun hpc) (decodeWord_eq_none_iff.mpr ?_)
  rw [hmask]
  exact ⟨hhalt, hret, hcall, hadd⟩

/-- Settles O16, by the ways a step of a running core ends: the fetch fault, the illegal word, and each
instruction with its stack condition or without. -/
theorem stepEndsInExactlyOneWay : Obligations.StepEndsInExactlyOneWay := by
  intro s hrun hrecord
  have hcause := State.cause_of_running hrecord hrun
  by_cases hgt : 4094 < s.pc.toNat
  · refine ⟨_, step_of_pc_gt hrun hgt, ?_⟩
    simp [hgt, hgt.not_ge, Condition.cause]
  have hpc : s.pc.toNat ≤ 4094 := Nat.le_of_not_gt hgt
  have hf := State.fetches_of_pc_le hrun hpc
  cases hd : decodeWord s.wordAtPc with
  | none =>
    refine ⟨_, step_of_illegal hf hd, ?_⟩
    simp [hgt, hpc, Condition.cause]
  | some i =>
    have hstep := step_of_fetches hf hd
    cases i with
    | halt =>
      refine ⟨_, hstep.trans (exec_halt _), ?_⟩
      simp [hgt, hpc, hcause]
    | ret =>
      by_cases hsp : s.sp = 0
      · refine ⟨_, hstep.trans (exec_ret_of_empty hsp), ?_⟩
        simp [hgt, hpc, hsp, Condition.cause]
      · obtain ⟨v, u, hpop⟩ := State.exists_pop (s := s.advance) hsp
        refine ⟨_, hstep.trans (exec_ret_of_pop hpop), ?_⟩
        simp [hgt, hpc, hsp, hcause, hrun, State.pop_record hpop]
    | call nnn =>
      by_cases hsp : s.sp = 16
      · refine ⟨_, hstep.trans (exec_call_of_full nnn hsp), ?_⟩
        simp [hgt, hpc, hsp, Condition.cause]
      · obtain ⟨u, hpush⟩ := State.exists_push (s := s.advance) s.advance.pc hsp
        refine ⟨_, hstep.trans (exec_call_of_push hpush), ?_⟩
        simp [hgt, hpc, hsp, hcause, hrun, State.push_record hpush]
    | add x y =>
      refine ⟨_, hstep.trans (exec_add x y _), ?_⟩
      simp [hgt, hpc, hcause, hrun]

/-- An execute stage that faults has taken one of the two stack conditions and done nothing else (R126). -/
theorem exec_eq_raise_of_faulted {i : Instr} {s t : State} (he : exec i s = .next t)
    (hs : s.status ≠ .faulted) (ht : t.status = .faulted) :
    t = s.raise .stackOverflow ∨ t = s.raise .stackUnderflow := by
  rcases exec_cases he with ⟨-, rfl⟩ | ⟨nnn, u, -, hpush, rfl⟩ | ⟨nnn, -, -, rfl⟩ |
    ⟨v, u, -, hpop, rfl⟩ | ⟨-, -, rfl⟩ | ⟨x, y, -, rfl⟩
  · cases ht
  · exact absurd ((State.push_status hpush).symm.trans ht) hs
  · exact .inl rfl
  · exact absurd ((State.pop_status hpop).symm.trans ht) hs
  · exact .inr rfl
  · exact absurd ht hs

/-- A step that faults has taken a fatal condition, the fetch fault where it stood and the others after the
advance, and done nothing else (R125, R126). -/
theorem step_eq_raise_of_faulted {s t : State} (hrun : s.status = .running) (hstep : step s = .next t)
    (ht : t.status = .faulted) :
    t = s.raise .outOfBoundsFetch ∨ (s.Fetches ∧ ∃ k : Condition, t = s.advance.raise k ∧
      k.cause ≠ .outOfBoundsFetch ∧ k.info = if k.cause = .unimplementedOpcode then s.wordAtPc else 0) := by
  rcases step_cases s with ⟨hs, -⟩ | ⟨-, -, hs⟩ | ⟨-, hok, -, hs⟩ | ⟨i, -, hok, -, hs⟩
  · exact absurd hrun hs
  · cases hs.symm.trans hstep
    exact .inl rfl
  · cases hs.symm.trans hstep
    exact .inr ⟨⟨hrun, hok⟩, _, rfl, nofun, rfl⟩
  · have hno : s.advance.status ≠ .faulted := fun h => by cases hrun.symm.trans h
    rcases exec_eq_raise_of_faulted (hs.symm.trans hstep) hno ht with rfl | rfl
    · exact .inr ⟨⟨hrun, hok⟩, _, rfl, nofun, rfl⟩
    · exact .inr ⟨⟨hrun, hok⟩, _, rfl, nofun, rfl⟩

/-- Settles O17: a fault changes nothing but the fault record, after the advance where there was one. -/
theorem faultsArePrecise : Obligations.FaultsArePrecise := by
  intro s t hrun hstep ht
  rcases step_eq_raise_of_faulted hrun hstep ht with rfl | ⟨hf, k, rfl, hfetch, hinfo⟩
  · exact ⟨rfl, rfl, rfl, rfl, nofun, fun _ => rfl, fun h => absurd rfl h, rfl⟩
  · exact ⟨rfl, rfl, rfl, rfl, k.cause_ne_noCause, fun h => absurd h hfetch,
      fun _ => ⟨rfl, State.advance_pc_toNat hf.2⟩, hinfo⟩

/-- Settles O18. -/
theorem causeCodesFollowTheTable : Obligations.CauseCodesFollowTheTable :=
  ⟨rfl, rfl, rfl, rfl, rfl⟩

/-! ## 40_step_sequencer.md: RUN (R76, R77) -/

section
variable {s t : State} {n : Nat}

theorem runFuel_of_stopped (n : Nat) (h : s.status ≠ .running) : runFuel n s = some s := by
  cases n <;> simp [runFuel, h]

theorem runFuel_zero_of_running (h : s.status = .running) : runFuel 0 s = none := by
  simp [runFuel, h]

/-- A RUN of a running core makes one STEP and goes on from there. -/
theorem runFuel_succ_of_running (h : s.status = .running) :
    runFuel (n + 1) s = some t ↔ ∃ u, step s = .next u ∧ runFuel n u = some t := by
  cases hstep : step s <;> simp [runFuel, h, hstep]

theorem stepTimes_succ :
    stepTimes (n + 1) s = some t ↔ ∃ u, step s = .next u ∧ stepTimes n u = some t := by
  cases hstep : step s <;> simp [stepTimes, hstep]

/-- `t` is the first state that is not running on the way of `k` STEPs from `s`. -/
def StopsAfter (k : Nat) (s t : State) : Prop :=
  stepTimes k s = some t ∧ t.RunEnded ∧ ∀ j < k, ∀ u, stepTimes j s = some u → u.status = .running

theorem stopsAfter_zero : StopsAfter 0 s t ↔ s = t ∧ s.status ≠ .running := by
  constructor
  · rintro ⟨hsteps, hend, -⟩
    cases hsteps
    exact ⟨rfl, hend⟩
  · rintro ⟨rfl, hstop⟩
    exact ⟨rfl, hstop, fun j hj => absurd hj j.not_lt_zero⟩

theorem stopsAfter_succ :
    StopsAfter (n + 1) s t ↔ s.status = .running ∧ ∃ u, step s = .next u ∧ StopsAfter n u t := by
  constructor
  · rintro ⟨hsteps, hend, hbefore⟩
    obtain ⟨u, hstep, hrest⟩ := stepTimes_succ.mp hsteps
    refine ⟨hbefore 0 n.succ_pos s rfl, u, hstep, hrest, hend, fun j hj w hw => ?_⟩
    exact hbefore (j + 1) (Nat.succ_lt_succ hj) w (stepTimes_succ.mpr ⟨u, hstep, hw⟩)
  · rintro ⟨hrun, u, hstep, hrest, hend, hbefore⟩
    refine ⟨stepTimes_succ.mpr ⟨u, hstep, hrest⟩, hend, fun j hj w hw => ?_⟩
    cases j with
    | zero =>
      cases hw
      exact hrun
    | succ j =>
      obtain ⟨u', hstep', hw⟩ := stepTimes_succ.mp hw
      cases hstep.symm.trans hstep'
      exact hbefore j (Nat.lt_of_succ_lt_succ hj) w hw

theorem stopsAfter_of_stopped (h : s.status ≠ .running) : StopsAfter n s t ↔ n = 0 ∧ s = t := by
  cases n with
  | zero => simp [stopsAfter_zero, h]
  | succ n => simp [stopsAfter_succ, h]

/-- A RUN ends where its STEPs first stop, within its fuel. -/
theorem runFuel_eq_some_iff : runFuel n s = some t ↔ ∃ k ≤ n, StopsAfter k s t := by
  induction n generalizing s with
  | zero =>
    by_cases hrun : s.status = .running
    · simp [runFuel_zero_of_running hrun, stopsAfter_zero, hrun]
    · simp [runFuel_of_stopped 0 hrun, stopsAfter_of_stopped hrun]
  | succ n ih =>
    by_cases hrun : s.status = .running
    · rw [runFuel_succ_of_running hrun]
      constructor
      · rintro ⟨u, hstep, hrest⟩
        obtain ⟨k, hk, hstops⟩ := ih.mp hrest
        exact ⟨k + 1, Nat.succ_le_succ hk, stopsAfter_succ.mpr ⟨hrun, u, hstep, hstops⟩⟩
      · rintro ⟨k, hk, hstops⟩
        cases k with
        | zero => exact absurd hrun (stopsAfter_zero.mp hstops).2
        | succ k =>
          obtain ⟨-, u, hstep, hrest⟩ := stopsAfter_succ.mp hstops
          exact ⟨u, hstep, ih.mpr ⟨k, Nat.le_of_succ_le_succ hk, hrest⟩⟩
    · simp [runFuel_of_stopped (n + 1) hrun, stopsAfter_of_stopped hrun]

end

/-- Settles O15: neither a STEP nor a RUN looks further than `STATUS` on a stopped core. -/
theorem stoppedCoreIsLeftAsItIs : Obligations.StoppedCoreIsLeftAsItIs :=
  fun _ h => ⟨step_of_stopped h, fun n => runFuel_of_stopped n h⟩

/-- Settles O37, by induction on the fuel. -/
theorem runIsRepeatedStep : Obligations.RunIsRepeatedStep :=
  fun _ _ _ => runFuel_eq_some_iff

end Sys2Proof.Machine

namespace Sys2Proof.Machine

/-! ## 42_call_return.md: the instructions and the primitives (R95 to R101) -/

theorem addrOperand_eq_ofNat (nnn : Addr) : addrOperand nnn = BitVec.ofNat 16 nnn.toNat :=
  (BitVec.ofNat_toNat 16 nnn).symm

/-- Settles O21: the words as numbers; a push that has room is all that CALL asks for. -/
theorem callPushesAndJumps : Obligations.CallPushesAndJumps := by
  refine ⟨fun _ _ => decodeWord_eq_call_iff_toNat, fun nnn s h => ?_⟩
  rw [exec_call_of_push (State.push_of_lt _ h), addrOperand_eq_ofNat]
  rfl

/-- Settles O22. -/
theorem callOnFullStackFaults : Obligations.CallOnFullStackFaults :=
  fun nnn _ => exec_call_of_full nnn

/-- Settles O23: the one word of RETURN; the pop of entry `n` is all that it asks for. -/
theorem returnPopsIntoPc : Obligations.ReturnPopsIntoPc :=
  ⟨fun _ => decodeWord_eq_ret_iff_eq, fun _ _ h hn => exec_ret_of_pop (State.pop_of_sp_eq_succ h hn)⟩

/-- Settles O24. -/
theorem returnOnEmptyStackFaults : Obligations.ReturnOnEmptyStackFaults :=
  fun _ => exec_ret_of_empty

section
variable {s t u : State} {v : Word}

/-- A push leaves the value in the entry it occupied. -/
theorem State.push_stack_top (h : s.push v = some u) {k : Fin 16} (hk : k.val = s.sp.val) : u.stack[k] = v := by
  obtain ⟨_, rfl⟩ := State.push_eq_some h
  simp [hk]

/-- A push leaves every other entry alone. -/
theorem State.push_stack_other (h : s.push v = some u) {k : Fin 16} (hk : k.val ≠ s.sp.val) :
    u.stack[k] = s.stack[k] := by
  obtain ⟨_, rfl⟩ := State.push_eq_some h
  simp [hk.symm]

theorem State.pop_stack (h : s.pop = some (v, u)) : u.stack = s.stack := by
  obtain ⟨_, _, rfl⟩ := State.pop_eq_some h
  rfl

/-- A pop undoes a push: where `SP` is as the push left it and the entry it wrote is unchanged, the value
pushed is popped and `SP` is back. -/
theorem State.pop_after_push (hpush : s.push v = some t) (hsp : u.sp = t.sp)
    (htop : ∀ k : Fin 16, k.val = s.sp.val → u.stack[k] = t.stack[k]) :
    u.pop = some (v, { u with sp := s.sp }) := by
  have hroom : s.sp.val < 16 := (State.push_eq_some hpush).1
  have hcount : u.sp.val = s.sp.val + 1 := hsp ▸ State.push_sp hpush
  have hvalue : u.stack[s.sp.val] = v :=
    (htop ⟨s.sp.val, hroom⟩ rfl).trans (State.push_stack_top hpush rfl)
  rw [State.pop_of_sp_eq_succ hcount hroom, hvalue]

end

/-- Settles O25: the CALL pushed the post-fetch `PC`, and the RETURN pops it. -/
theorem returnComesBackAfterTheCall : Obligations.ReturnComesBackAfterTheCall := by
  intro nnn s t u hroom he htop hsp
  obtain ⟨p, hpush⟩ := State.exists_push s.pc hroom
  cases (exec_call_of_push hpush).symm.trans he
  exact ⟨_, exec_ret_of_pop (State.pop_after_push hpush hsp htop), rfl, rfl, rfl, rfl, rfl, rfl⟩

/-! ### States that differ in unoccupied entries only -/

section
variable {s t u : State} {v : Word}

theorem State.agreeButUnoccupied_refl (s : State) : s.AgreeButUnoccupied s := ⟨rfl, fun _ _ => rfl⟩

/-- The other state is the one with some stack in place of its own. -/
theorem State.AgreeButUnoccupied.exists_stack (h : s.AgreeButUnoccupied t) :
    ∃ stack, t = { s with stack := stack } ∧ ∀ i : Fin 16, i.val < s.sp.val → s.stack[i] = stack[i] := by
  obtain ⟨heq, hocc⟩ := h
  exact ⟨t.stack, heq.symm, hocc⟩

/-- A pop undoes a push also after pushes and pops in between, which leave unoccupied entries behind. -/
theorem State.pop_of_agree_push (hpush : s.push v = some t) (h : t.AgreeButUnoccupied u) :
    ∃ w, u.pop = some (v, w) ∧ s.AgreeButUnoccupied w := by
  obtain ⟨stack, rfl, hocc⟩ := h.exists_stack
  have hsp := State.push_sp hpush
  refine ⟨_, State.pop_after_push hpush rfl fun k hk => (hocc k (by omega)).symm, ?_⟩
  have hbelow (i : Fin 16) (hi : i.val < s.sp.val) : s.stack[i] = stack[i] :=
    (State.push_stack_other hpush hi.ne).symm.trans (hocc i (by omega))
  obtain ⟨_, rfl⟩ := State.push_eq_some hpush
  exact ⟨rfl, hbelow⟩

end

/-! ### Pushes in sequence -/

section
variable {s t u : State} {v : Word} {vs : List Word}

theorem State.pushAll_cons_of_push (h : s.push v = some u) (vs : List Word) :
    s.pushAll (v :: vs) = u.pushAll vs := by
  simp only [State.pushAll, h]

/-- Pushes that all answer: the first did, and the others follow it. -/
theorem State.pushAll_cons_eq_some (h : s.pushAll (v :: vs) = some t) :
    ∃ u, s.push v = some u ∧ u.pushAll vs = some t := by
  rw [State.pushAll] at h
  split at h
  · exact ⟨_, ‹_›, h⟩
  · cases h

/-- Each push occupies one entry. -/
theorem State.pushAll_sp (h : s.pushAll vs = some t) : t.sp.val = s.sp.val + vs.length := by
  induction vs generalizing s with
  | nil =>
    cases h
    rfl
  | cons v vs ih =>
    obtain ⟨u, hpush, hrest⟩ := State.pushAll_cons_eq_some h
    rw [ih hrest, State.push_sp hpush, List.length_cons]
    omega

/-- Pushes that fit into the free entries succeed. -/
theorem State.exists_pushAll (hfit : s.sp.val + vs.length ≤ 16) : ∃ t, s.pushAll vs = some t := by
  induction vs generalizing s with
  | nil => exact ⟨s, rfl⟩
  | cons v vs ih =>
    rw [List.length_cons] at hfit
    have hroom : s.sp ≠ 16 := fun hfull => by simp [hfull] at hfit
    obtain ⟨u, hpush⟩ := State.exists_push v hroom
    have hsp := State.push_sp hpush
    rw [State.pushAll_cons_of_push hpush]
    exact ih (by omega)

/-- One pop more after `n` that answered. -/
theorem State.popAll_succ {n : Nat} (h : s.popAll n = some (vs, t)) (hpop : t.pop = some (v, u)) :
    s.popAll (n + 1) = some (vs ++ [v], u) := by
  induction n generalizing s vs with
  | zero =>
    cases h
    simp [State.popAll, hpop]
  | succ n ih =>
    rw [State.popAll] at h ⊢
    split at h
    · obtain ⟨⟨vs, t⟩, hrest, heq⟩ := Option.map_eq_some_iff.mp h
      cases heq
      simp [ih hrest]
    · cases h

/-- As many pops as pushes answer the values in reverse, and leave what the pushes found. -/
theorem State.popAll_after_pushAll (h : s.pushAll vs = some t) :
    ∃ u, t.popAll vs.length = some (vs.reverse, u) ∧ s.AgreeButUnoccupied u := by
  induction vs generalizing s with
  | nil =>
    cases h
    exact ⟨_, rfl, State.agreeButUnoccupied_refl _⟩
  | cons v vs ih =>
    obtain ⟨p, hpush, hrest⟩ := State.pushAll_cons_eq_some h
    obtain ⟨w, hinner, hagree⟩ := ih hrest
    obtain ⟨u, hpop, hback⟩ := State.pop_of_agree_push hpush hagree
    exact ⟨u, List.reverse_cons ▸ State.popAll_succ hinner hpop, hback⟩

end

/-- Settles O26: pushes that fit succeed and their pops undo them one by one; pushes that succeed occupy an
entry each, so those that do not fit fail. -/
theorem pushesComeBackLastInFirstOut : Obligations.PushesComeBackLastInFirstOut := by
  intro s vs
  refine ⟨fun hfit => ?_, fun hlong => ?_⟩
  · obtain ⟨t, hpushes⟩ := State.exists_pushAll hfit
    obtain ⟨u, hpops, hagree⟩ := State.popAll_after_pushAll hpushes
    obtain ⟨stack, rfl, -⟩ := hagree.exists_stack
    exact ⟨t, _, hpushes, State.pushAll_sp hpushes, hpops, rfl⟩
  · refine Option.eq_none_iff_forall_ne_some.mpr fun t hpushes => ?_
    have hsp := State.pushAll_sp hpushes
    have := t.sp.isLt
    omega

/-! ## Frames and what an instruction depends on (10_state.md, 20_memory.md, 44_absent_families.md) -/

section
variable {i : Instr} {s t u : State} {v : Word}

theorem State.push_mem (h : s.push v = some u) : u.mem = s.mem := by
  obtain ⟨_, rfl⟩ := State.push_eq_some h
  rfl

theorem State.pop_mem (h : s.pop = some (v, u)) : u.mem = s.mem := by
  obtain ⟨_, _, rfl⟩ := State.pop_eq_some h
  rfl

/-- No instruction writes memory (R31). -/
theorem exec_mem (he : exec i s = .next t) : t.mem = s.mem := by
  rcases exec_cases he with ⟨-, rfl⟩ | ⟨nnn, u, -, hpush, rfl⟩ | ⟨nnn, -, -, rfl⟩ |
    ⟨v, u, -, hpop, rfl⟩ | ⟨-, -, rfl⟩ | ⟨x, y, -, rfl⟩
  · rfl
  · exact (u.setPc_mem _).trans (State.push_mem hpush)
  · rfl
  · exact (u.setPc_mem v).trans (State.pop_mem hpop)
  · rfl
  · rfl

/-- A stack entry changes by the push of a CALL only (R17). -/
theorem exec_stack_getElem (he : exec i s = .next t) {k : Fin 16}
    (hk : ∀ nnn, i = .call nnn → k.val ≠ s.sp.val) : t.stack[k] = s.stack[k] := by
  rcases exec_cases he with ⟨-, rfl⟩ | ⟨nnn, u, rfl, hpush, rfl⟩ | ⟨nnn, -, -, rfl⟩ |
    ⟨v, u, -, hpop, rfl⟩ | ⟨-, -, rfl⟩ | ⟨x, y, -, rfl⟩
  · rfl
  · exact State.push_stack_other hpush (hk nnn rfl)
  · rfl
  · exact congrArg (·[k]) ((u.setPc_stack v).trans (State.pop_stack hpop))
  · rfl
  · rfl

theorem getReg_of_exec_add_other {x y j : RegIdx} (he : exec (.add x y) s = .next t) (hx : j ≠ x)
    (hflag : j ≠ 0xF) : t.getReg j = s.getReg j := by
  cases (exec_add x y s).symm.trans he
  rw [State.getReg_setFlag_other _ _ hflag, State.getReg_setReg_other _ _ hx.symm]

/-- A register changes by ADD only, and then it is the destination or the flag register (R13). -/
theorem exec_getReg (he : exec i s = .next t) {j : RegIdx} (hj : ∀ x y, i = .add x y → j ≠ x ∧ j ≠ 0xF) :
    t.getReg j = s.getReg j := by
  rcases exec_regs_or_add he with hregs | ⟨x, y, rfl⟩
  · exact State.getReg_of_regs_eq hregs j
  · obtain ⟨hx, hflag⟩ := hj x y rfl
    exact getReg_of_exec_add_other he hx hflag

/-- `SP` and `PC` change only by a CALL or a RETURN that completes. -/
theorem exec_sp_pc (he : exec i s = .next t) (hi : i = .halt ∨ (∃ x y, i = .add x y) ∨
    (i = .ret ∧ s.sp = 0) ∨ ((∃ nnn, i = .call nnn) ∧ s.sp = 16)) : t.sp = s.sp ∧ t.pc = s.pc := by
  rcases exec_cases he with ⟨-, rfl⟩ | ⟨nnn, u, rfl, hpush, rfl⟩ | ⟨nnn, -, -, rfl⟩ |
    ⟨v, u, rfl, hpop, rfl⟩ | ⟨-, -, rfl⟩ | ⟨x, y, -, rfl⟩
  · exact ⟨rfl, rfl⟩
  · simp [State.sp_ne_of_push hpush] at hi
  · exact ⟨rfl, rfl⟩
  · simp [State.sp_ne_of_pop hpop] at hi
  · exact ⟨rfl, rfl⟩
  · exact ⟨rfl, rfl⟩

/-- An execute stage that takes neither stack condition leaves the fault record, and `STATUS` unless it is
a HALT's. -/
theorem exec_record (he : exec i s = .next t) (hret : ¬(i = .ret ∧ s.sp = 0))
    (hcall : ¬((∃ nnn, i = .call nnn) ∧ s.sp = 16)) :
    (i ≠ .halt → t.status = s.status) ∧ t.cause = s.cause ∧ t.causeWord = s.causeWord := by
  rcases exec_cases he with ⟨rfl, rfl⟩ | ⟨nnn, u, -, hpush, rfl⟩ | ⟨nnn, rfl, hfull, -⟩ |
    ⟨v, u, -, hpop, rfl⟩ | ⟨rfl, hempty, -⟩ | ⟨x, y, -, rfl⟩
  · exact ⟨fun h => absurd rfl h, rfl, rfl⟩
  · exact (State.push_record hpush).imp_left fun hstatus _ => hstatus
  · exact absurd ⟨⟨nnn, rfl⟩, hfull⟩ hcall
  · exact (State.pop_record hpop).imp_left fun hstatus _ => hstatus
  · exact absurd ⟨rfl, hempty⟩ hret
  · exact ⟨fun _ => rfl, rfl, rfl⟩

theorem exec_regs_of_not_add (hi : ∀ x y, i ≠ .add x y) (he : exec i s = .next t) : t.regs = s.regs :=
  (exec_regs_or_add he).resolve_right fun ⟨x, y, h⟩ => hi x y h

/-- An instruction that is no ADD does the same on any other memory and registers. -/
theorem exec_of_not_add (hi : ∀ x y, i ≠ .add x y) (he : exec i s = .next t) (m : Memory)
    (r : Vector Byte 16) :
    exec i { s with mem := m, regs := r } = .next { t with mem := m, regs := r } := by
  rcases exec_cases he with ⟨rfl, rfl⟩ | ⟨nnn, u, rfl, hp, rfl⟩ | ⟨nnn, rfl, hfull, rfl⟩ |
    ⟨v, u, rfl, hp, rfl⟩ | ⟨rfl, hempty, rfl⟩ | ⟨x, y, rfl, -⟩
  · rfl
  · obtain ⟨hlt, rfl⟩ := State.push_eq_some hp
    have hpush := State.push_of_lt (s := { s with mem := m, regs := r }) s.pc hlt
    exact exec_call_of_push hpush
  · exact exec_call_of_full nnn hfull
  · obtain ⟨hpos, rfl, rfl⟩ := State.pop_eq_some hp
    have hpop := State.pop_of_pos (s := { s with mem := m, regs := r }) hpos
    exact exec_ret_of_pop hpop
  · exact exec_ret_of_empty hempty
  · exact absurd rfl (hi x y)

/-- An instruction does the same on any other memory (R31 (b)). -/
theorem exec_withMem (he : exec i s = .next t) (m : Memory) :
    exec i { s with mem := m } = .next { t with mem := m } := by
  by_cases hi : ∀ x y, i ≠ .add x y
  · rw [exec_regs_of_not_add hi he]
    exact exec_of_not_add hi he m s.regs
  · push Not at hi
    obtain ⟨x, y, rfl⟩ := hi
    cases (exec_add x y s).symm.trans he
    rfl

end

/-- Settles O33, element by element. -/
theorem frameOfEveryInstruction : Obligations.FrameOfEveryInstruction := by
  intro i s t he
  refine ⟨fun a => by rw [exec_mem he], fun j => exec_getReg he, fun k => exec_stack_getElem he,
    exec_sp_pc he, fun hhalt hret hcall => ?_, fun hret hcall => ?_⟩
  · exact (exec_record he hret hcall).1 hhalt
  · exact (exec_record he hret hcall).2

/-- Settles O34. -/
theorem memoryIsNoDataOfAnInstruction : Obligations.MemoryIsNoDataOfAnInstruction :=
  fun _ _ _ m he => ⟨exec_mem he, exec_withMem he m⟩

/-! ## 43_add.md: what ADD writes (R105, R106, R108) -/

theorem sumByte_eq_ofNat (a b : Byte) : sumByte a b = BitVec.ofNat 8 (a.toNat + b.toNat) := by
  apply BitVec.eq_of_toNat_eq
  rw [sumByte_toNat, BitVec.toNat_ofNat]

theorem sumByte_comm (a b : Byte) : sumByte a b = sumByte b a := by
  rw [sumByte, sumByte, sum9, sum9, BitVec.add_comm]

theorem carryByte_comm (a b : Byte) : carryByte a b = carryByte b a := by
  rw [carryByte, carryByte, sum9, sum9, BitVec.add_comm]

/-- A byte added to itself carries its highest bit out. -/
theorem carryByte_self (a : Byte) : carryByte a a = if a.toNat ≥ 128 then 1 else 0 := by
  rw [carryByte_eq_ite]
  exact if_congr (by omega) rfl rfl

/-- An ADD leaves the sum in its destination, unless the flag write replaces it (R106). -/
theorem getReg_dest_of_exec_add {x y : RegIdx} {s t : State} (he : exec (.add x y) s = .next t)
    (hx : x ≠ 0xF) : t.getReg x = sumByte (s.getReg x) (s.getReg y) := by
  cases (exec_add x y s).symm.trans he
  rw [State.getReg_setFlag_other _ _ hx, State.getReg_setReg_same]

/-- Settles O28: the words as numbers; the bytes written are the sum's and its carry. -/
theorem addWritesSumThenCarry : Obligations.AddWritesSumThenCarry := by
  refine ⟨fun _ _ _ => decodeWord_eq_add_iff_toNat, fun x y s => ?_⟩
  simp only [exec_add, sumByte_eq_ofNat, carryByte_eq_ite]
  rfl

/-- Settles O29: the flag register holds the carry, another destination the sum, and no other register has
changed. -/
theorem addAliasingTable : Obligations.AddAliasingTable := by
  intro x y s t he
  have hflag := getReg_flag_of_exec_add he
  have hsum := fun hx : x ≠ 0xF => getReg_dest_of_exec_add he hx
  have hother := fun j : RegIdx => getReg_of_exec_add_other (j := j) he
  refine ⟨fun hx hy hxy => ⟨?_, ?_, hother y hxy.symm hy⟩, ?_, ?_, ?_, ?_, hother⟩
  · rw [hsum hx, sumByte_toNat]
  · rw [hflag, carryByte_toNat]
  · rintro rfl hx
    rw [hsum hx, hflag, sumByte_toNat, carryByte_self, Nat.two_mul]
    exact ⟨rfl, rfl⟩
  · rintro hx rfl
    rw [hsum hx, hflag, sumByte_toNat, carryByte_toNat]
    exact ⟨rfl, rfl⟩
  · rintro rfl hy
    rw [hflag, carryByte_toNat]
    exact ⟨rfl, hother y hy hy⟩
  · rintro rfl rfl
    rw [hflag, carryByte_self]

/-- Settles O31: sum and carry are those of the sum in nine bits, which is commutative. -/
theorem addIsCommutativeInResult : Obligations.AddIsCommutativeInResult := by
  intro x y s t u ht hu
  refine ⟨?_, fun hx hy => ?_⟩
  · rw [getReg_flag_of_exec_add ht, getReg_flag_of_exec_add hu, carryByte_comm]
  · rw [getReg_dest_of_exec_add ht hx, getReg_dest_of_exec_add hu hy, sumByte_comm]

/-- Settles O35: the instructions that are no ADD by their frame; what ADD writes is sum and carry of the two
operands. -/
theorem registersBelongToAdd : Obligations.RegistersBelongToAdd := by
  refine ⟨fun i s t r hi he => ⟨exec_regs_of_not_add hi he, ?_⟩, fun x y s s' t t' hx hy ht ht' => ?_⟩
  · rw [exec_mem he]
    exact exec_of_not_add hi he s.mem r
  · have hflag : t.getReg 0xF = t'.getReg 0xF := by
      rw [getReg_flag_of_exec_add ht, getReg_flag_of_exec_add ht', hx, hy]
    refine ⟨?_, hflag, fun j hj hj15 =>
      ⟨getReg_of_exec_add_other ht hj hj15, getReg_of_exec_add_other ht' hj hj15⟩⟩
    by_cases hdest : x = 0xF
    · rwa [hdest]
    · rw [getReg_dest_of_exec_add ht hdest, getReg_dest_of_exec_add ht' hdest, hx, hy]

end Sys2Proof.Machine

namespace Sys2Proof.Machine

/-! ## Unoccupied stack entries are unobservable (10_state.md R17; 92_eei_decisions.md D7, D14) -/

section
variable {s t u s' : State} {v : Word} {i : Instr}

theorem State.AgreeButUnoccupied.hostView (h : s.AgreeButUnoccupied t) : s.hostView = t.hostView := by
  obtain ⟨stack, rfl, -⟩ := h.exists_stack
  rfl

theorem State.AgreeButUnoccupied.advance (h : s.AgreeButUnoccupied t) :
    s.advance.AgreeButUnoccupied t.advance := by
  obtain ⟨stack, rfl, hocc⟩ := h.exists_stack
  exact ⟨rfl, hocc⟩

theorem State.AgreeButUnoccupied.setPc (h : s.AgreeButUnoccupied t) (v : Word) :
    (s.setPc v).AgreeButUnoccupied (t.setPc v) := by
  obtain ⟨stack, rfl, hocc⟩ := h.exists_stack
  exact ⟨rfl, hocc⟩

theorem State.AgreeButUnoccupied.raise (h : s.AgreeButUnoccupied t) (k : Condition) :
    (s.raise k).AgreeButUnoccupied (t.raise k) := by
  obtain ⟨stack, rfl, hocc⟩ := h.exists_stack
  exact ⟨rfl, hocc⟩

/-- The two states push alike: the entry the push occupies receives the same value. -/
theorem State.AgreeButUnoccupied.push (h : s.AgreeButUnoccupied t) (hpush : s.push v = some s') :
    ∃ t', t.push v = some t' ∧ s'.AgreeButUnoccupied t' := by
  obtain ⟨stack, rfl, hocc⟩ := h.exists_stack
  obtain ⟨hlt, rfl⟩ := State.push_eq_some hpush
  refine ⟨_, State.push_of_lt (s := { s with stack := stack }) v hlt, rfl, fun i hi => ?_⟩
  by_cases htop : s.sp.val = i.val
  · simp [htop]
  · have hbelow : i.val < s.sp.val := by simp only at hi; omega
    simpa [htop] using hocc i hbelow

/-- The two states pop alike: the entry popped is occupied. -/
theorem State.AgreeButUnoccupied.pop (h : s.AgreeButUnoccupied t) (hpop : s.pop = some (v, s')) :
    ∃ t', t.pop = some (v, t') ∧ s'.AgreeButUnoccupied t' := by
  obtain ⟨stack, rfl, hocc⟩ := h.exists_stack
  obtain ⟨hpos, rfl, rfl⟩ := State.pop_eq_some hpop
  have htop := hocc ⟨s.sp.val - 1, by omega⟩ (by simp only; omega)
  have hpop' := State.pop_of_pos (s := { s with stack := stack }) hpos
  refine ⟨_, hpop'.trans (congrArg (fun w => some (w, _)) htop.symm), rfl, fun i hi => ?_⟩
  exact hocc i (by simp only at hi; omega)

theorem exec_agree (h : s.AgreeButUnoccupied t) (he : exec i s = .next s') :
    ∃ t', exec i t = .next t' ∧ s'.AgreeButUnoccupied t' := by
  have hpc : t.pc = s.pc := congrArg HostView.pc h.hostView.symm
  have hsp : t.sp = s.sp := congrArg HostView.sp h.hostView.symm
  rcases exec_cases he with ⟨rfl, rfl⟩ | ⟨nnn, u, rfl, hpush, rfl⟩ | ⟨nnn, rfl, hfull, rfl⟩ |
    ⟨v, u, rfl, hpop, rfl⟩ | ⟨rfl, hempty, rfl⟩ | ⟨x, y, rfl, rfl⟩
  · obtain ⟨stack, rfl, hocc⟩ := h.exists_stack
    exact ⟨_, exec_halt _, rfl, hocc⟩
  · obtain ⟨t', hpush', hagree⟩ := h.push hpush
    exact ⟨_, exec_call_of_push (hpc ▸ hpush'), hagree.setPc _⟩
  · exact ⟨_, exec_call_of_full nnn (hsp.trans hfull), h.raise _⟩
  · obtain ⟨t', hpop', hagree⟩ := h.pop hpop
    exact ⟨_, exec_ret_of_pop hpop', hagree.setPc v⟩
  · exact ⟨_, exec_ret_of_empty (hsp.trans hempty), h.raise _⟩
  · obtain ⟨stack, rfl, hocc⟩ := h.exists_stack
    exact ⟨_, exec_add x y _, rfl, hocc⟩

/-- A step of one state is matched by a step of the other: they fetch the same word. -/
theorem step_agree (h : s.AgreeButUnoccupied t) (hstep : step s = .next s') :
    ∃ t', step t = .next t' ∧ s'.AgreeButUnoccupied t' := by
  have hstatus : t.status = s.status := congrArg HostView.status h.hostView.symm
  have hpc : t.pc = s.pc := congrArg HostView.pc h.hostView.symm
  have hmem : t.mem = s.mem := congrArg HostView.mem h.hostView.symm
  have hword : t.wordAtPc = s.wordAtPc := by rw [State.wordAtPc, State.wordAtPc, hmem, hpc]
  rcases step_cases s with ⟨hs, heq⟩ | ⟨hs, hok, heq⟩ | ⟨hs, hok, hd, heq⟩ | ⟨i, hs, hok, hd, heq⟩
  · cases heq.symm.trans hstep
    exact ⟨t, step_of_stopped (hstatus ▸ hs), h⟩
  · cases heq.symm.trans hstep
    have hgt : 4094 < t.pc.toNat := hpc ▸ Nat.lt_of_not_ge (of_decide_eq_false hok)
    exact ⟨_, step_of_pc_gt (hstatus.trans hs) hgt, h.raise _⟩
  · cases heq.symm.trans hstep
    refine ⟨_, step_of_illegal ⟨hstatus.trans hs, hpc ▸ hok⟩ (hword ▸ hd), ?_⟩
    exact hword ▸ h.advance.raise _
  · obtain ⟨t', he, hagree⟩ := exec_agree h.advance (heq.symm.trans hstep)
    exact ⟨t', (step_of_fetches ⟨hstatus.trans hs, hpc ▸ hok⟩ (hword ▸ hd)).trans he, hagree⟩

end

/-- Settles O36, by induction on the number of steps. -/
theorem unoccupiedStackEntriesAreUnobservable : Obligations.UnoccupiedStackEntriesAreUnobservable := by
  intro n s t s' h hsteps
  induction n generalizing s t with
  | zero =>
    cases hsteps
    exact ⟨t, rfl, h, h.hostView⟩
  | succ n ih =>
    obtain ⟨u, hstep, hrest⟩ := stepTimes_succ.mp hsteps
    obtain ⟨w, hstep', hagree⟩ := step_agree h hstep
    obtain ⟨t', hrest', hfinal⟩ := ih u w hagree hrest
    exact ⟨t', stepTimes_succ.mpr ⟨w, hstep', hrest'⟩, hfinal⟩

/-! ## 42_call_return.md: a RETURN and the CALL it matches, over whole steps (R100, R101) -/

section
variable {s t u : State} {n b : Nat} {k : Fin 16}

/-- A step changes no occupied stack entry: a CALL writes the first unoccupied one. -/
theorem step_stack_occupied (hstep : step s = .next t) (hk : k.val < s.sp.val) : t.stack[k] = s.stack[k] := by
  rcases step_cases s with ⟨-, hs⟩ | ⟨-, -, hs⟩ | ⟨-, -, -, hs⟩ | ⟨i, -, -, -, hs⟩
  · cases hs.symm.trans hstep
    rfl
  · cases hs.symm.trans hstep
    rfl
  · cases hs.symm.trans hstep
    rfl
  · exact exec_stack_getElem (hs.symm.trans hstep) fun _ _ => hk.ne

/-- Nor does any number of steps in which it stays occupied. -/
theorem stepTimes_stack_occupied (hsteps : stepTimes n s = some t)
    (hsp : ∀ j ≤ n, ∀ w, stepTimes j s = some w → k.val < w.sp.val) : t.stack[k] = s.stack[k] := by
  induction n generalizing s with
  | zero =>
    cases hsteps
    rfl
  | succ n ih =>
    obtain ⟨u, hstep, hrest⟩ := stepTimes_succ.mp hsteps
    have hfirst := step_stack_occupied hstep (hsp 0 n.succ.zero_le s rfl)
    refine (ih hrest fun j hj w hw => ?_).trans hfirst
    exact hsp (j + 1) (Nat.succ_le_succ hj) w (stepTimes_succ.mpr ⟨u, hstep, hw⟩)

end

/-- Settles O53: the entry the CALL wrote stays occupied, so the RETURN pops the post-fetch `PC`. -/
theorem returnMatchesItsCall : Obligations.ReturnMatchesItsCall := by
  intro n nnn s t u hs hroom hcall hstep hsteps hlevel hu hsp hret
  obtain ⟨p, hpush⟩ := State.exists_push (s := s.advance) s.advance.pc hroom
  cases ((step_of_fetches hs hcall).trans (exec_call_of_push hpush)).symm.trans hstep
  have hcount := State.push_sp hpush
  rw [State.advance_sp] at hcount
  have htop (k : Fin 16) (hk : k.val = s.sp.val) :
      u.stack[k] = (p.setPc (addrOperand nnn)).stack[k] := by
    refine stepTimes_stack_occupied hsteps fun j hj w hw => ?_
    have hle : p.sp.val ≤ w.sp.val := hlevel j hj w hw
    omega
  have hpop := State.pop_after_push (u := u.advance) hpush hsp htop
  exact ⟨_, (step_of_fetches hu hret).trans (exec_ret_of_pop hpop), hu.1, State.advance_pc_toNat hs.2, rfl⟩

/-! ## Even alignment (70_reset_and_hazards.md R158; 92_eei_decisions.md D1) -/

section
variable {s t u : State} {v : Word} {i : Instr}

theorem State.evenAligned_advance (h : s.EvenAligned) (hok : fetchOk s.pc = true) : s.advance.EvenAligned := by
  obtain ⟨hpc, hstack⟩ := h
  refine ⟨?_, hstack⟩
  rw [State.advance_pc_toNat hok]
  omega

theorem State.stackEven_push (h : s.EvenAligned) (hv : v.toNat % 2 = 0) (hpush : s.push v = some u)
    {k : Fin 16} (hk : k.val < u.sp.val) : (u.stack[k]).toNat % 2 = 0 := by
  have hsp := State.push_sp hpush
  by_cases htop : k.val = s.sp.val
  · rwa [State.push_stack_top hpush htop]
  · rw [State.push_stack_other hpush htop]
    exact h.2 k (by omega)

theorem State.evenAligned_pop (h : s.EvenAligned) (hpop : s.pop = some (v, u)) : (u.setPc v).EvenAligned := by
  obtain ⟨hpos, rfl, rfl⟩ := State.pop_eq_some hpop
  refine ⟨h.2 ⟨s.sp.val - 1, by omega⟩ (by simp only; omega), fun k hk => h.2 k ?_⟩
  simp only [State.setPc_sp] at hk
  omega

theorem exec_keeps_evenAligned (h : s.EvenAligned) (htarget : ∀ nnn, i = .call nnn → nnn.toNat % 2 = 0)
    (he : exec i s = .next t) : t.EvenAligned := by
  rcases exec_cases he with ⟨-, rfl⟩ | ⟨nnn, u, rfl, hpush, rfl⟩ | ⟨nnn, -, -, rfl⟩ |
    ⟨v, u, -, hpop, rfl⟩ | ⟨-, -, rfl⟩ | ⟨x, y, -, rfl⟩
  · exact h
  · refine ⟨?_, fun k hk => State.stackEven_push h h.1 hpush hk⟩
    rw [State.setPc_pc, addrOperand_toNat]
    exact htarget nnn rfl
  · exact h
  · exact State.evenAligned_pop h hpop
  · exact h
  · exact h

end

/-- Settles O42: the advance by 2 keeps `PC` even, and so do a CALL to an even target and a RETURN. -/
theorem evenAlignmentIsKeptByEvenTargets : Obligations.EvenAlignmentIsKeptByEvenTargets := by
  intro s t h htarget hstep
  rcases step_cases s with ⟨-, hs⟩ | ⟨-, -, hs⟩ | ⟨-, hok, -, hs⟩ | ⟨i, -, hok, hd, hs⟩
  · cases hs.symm.trans hstep
    exact h
  · cases hs.symm.trans hstep
    exact h
  · cases hs.symm.trans hstep
    exact State.evenAligned_advance h hok
  · have hcall (nnn : Addr) (hi : i = .call nnn) : nnn.toNat % 2 = 0 := htarget nnn (hi ▸ hd)
    exact exec_keeps_evenAligned (State.evenAligned_advance h hok) hcall (hs.symm.trans hstep)

/-! ## Memory in canonical form (20_memory.md; log entry 19) -/

/-- Settles O43. -/
theorem memoryWriteReadsBack : Obligations.MemoryWriteReadsBack :=
  fun m a v h => ⟨Memory.write_wf h a v, Memory.byteAt_write_same h a v, fun _ => Memory.byteAt_write_other m v⟩

/-- An address that is not listed reads as reset left it (10_state.md R22). -/
theorem Memory.byteAt_of_unlisted {m : Memory} {a : Nat} (h : ∀ p ∈ m, p.1 ≠ a) :
    m.byteAt a = Config.unlistedByte := by
  induction m with
  | nil => rfl
  | cons p m ih =>
    simp only [Memory.byteAt, h p List.mem_cons_self, if_false]
    exact ih fun q hq => h q (List.mem_cons_of_mem _ hq)

section
variable {p q : Host.Cell} {m m' : Memory}

/-- The memories read alike at the 4096 addresses. -/
def Memory.ReadAlike (m m' : Memory) : Prop := ∀ a < Config.memSize, m.byteAt a = m'.byteAt a

theorem Memory.ReadAlike.symm (h : m.ReadAlike m') : m'.ReadAlike m := fun a ha => (h a ha).symm

theorem Memory.byteAt_head (p : Host.Cell) (m : Memory) : Memory.byteAt (p :: m) p.1 = p.2 := by
  simp [Memory.byteAt]

/-- The address a memory lists first is listed by one that reads alike, since its byte is no unlisted one. -/
theorem Memory.ReadAlike.exists_le (h : Memory.ReadAlike (p :: m) m') (hwf : Memory.wf (p :: m)) :
    ∃ q ∈ m', q.1 ≤ p.1 := by
  obtain ⟨hlt, hbyte⟩ := hwf.2 p List.mem_cons_self
  by_contra hnone
  push Not at hnone
  have hread := h p.1 hlt
  rw [Memory.byteAt_head, Memory.byteAt_below m' p.1 hnone] at hread
  exact hbyte hread

/-- Of two memories that read alike the first addresses are in the same order both ways, hence equal. -/
theorem Memory.ReadAlike.head_le (h : Memory.ReadAlike (p :: m) (q :: m')) (hwf : Memory.wf (p :: m))
    (hwf' : Memory.wf (q :: m')) : q.1 ≤ p.1 := by
  obtain ⟨r, hr, hle⟩ := h.exists_le hwf
  rcases List.mem_cons.mp hr with rfl | hr
  · exact hle
  · exact ((List.pairwise_cons.mp hwf'.1).1 r hr).le.trans hle

/-- With the same first cell the rests read alike: both leave its address unlisted. -/
theorem Memory.ReadAlike.tail (h : Memory.ReadAlike (p :: m) (p :: m')) (hwf : Memory.wf (p :: m))
    (hwf' : Memory.wf (p :: m')) : Memory.ReadAlike m m' := by
  intro a ha
  by_cases hp : p.1 = a
  · rw [← hp, Memory.byteAt_tail hwf, Memory.byteAt_tail hwf']
  · simpa [Memory.byteAt, hp] using h a ha

theorem Memory.ReadAlike.eq (h : m.ReadAlike m') (hwf : m.wf) (hwf' : m'.wf) : m = m' := by
  induction m generalizing m' with
  | nil =>
    cases m' with
    | nil => rfl
    | cons q m' => simpa using h.symm.exists_le hwf'
  | cons p m ih =>
    cases m' with
    | nil => simpa using h.exists_le hwf
    | cons q m' =>
      have haddr : p.1 = q.1 := Nat.le_antisymm (h.symm.head_le hwf' hwf) (h.head_le hwf hwf')
      have hread := h p.1 (hwf.2 p List.mem_cons_self).1
      have hbyte : p.2 = q.2 := by
        rwa [Memory.byteAt_head, haddr, Memory.byteAt_head] at hread
      obtain rfl : p = q := Prod.ext haddr hbyte
      rw [ih (h.tail hwf hwf') (Memory.wf_tail hwf) (Memory.wf_tail hwf')]

end

/-- Settles O44, by induction on the two lists: their first cells are equal, and their rests read alike. -/
theorem memoriesThatReadAlikeAreEqual : Obligations.MemoriesThatReadAlikeAreEqual :=
  fun _ _ hwf hwf' h => Memory.ReadAlike.eq h hwf hwf'

/-- Settles O20: bytes that are not listed are the word of HALT. -/
theorem unloadedMemoryHalts : Obligations.UnloadedMemoryHalts := by
  obtain ⟨-, -, hhalt, -⟩ := haltStopsTheCore
  refine ⟨fun s hrun hpc hunlisted => ?_, rfl⟩
  exact hhalt s hrun hpc (Memory.byteAt_of_unlisted fun p hp => (hunlisted p hp).1)
    (Memory.byteAt_of_unlisted fun p hp => (hunlisted p hp).2)

end Sys2Proof.Machine

namespace Sys2Proof.Machine

/-! ## RESET (10_state.md R22, 70_reset_and_hazards.md R150) -/

@[simp] theorem State.getReg_reset (i : RegIdx) : State.reset.getReg i = 0x00 :=
  Vector.getElem_replicate i.isLt

/-- Settles O38. -/
theorem resetValues : Obligations.ResetValues :=
  ⟨fun _ => rfl, State.getReg_reset, fun k => Vector.getElem_replicate k.isLt, rfl, rfl, rfl, rfl, rfl,
    fun _ => rfl⟩

/-- Settles O39: the session a RESET begins is sound. -/
theorem resetMeetsTheInvariant : Obligations.ResetMeetsTheInvariant :=
  Session.sound_fresh.1

/-! ## The host's transactions (70_reset_and_hazards.md R152 to R157) -/

section
variable {c d : Session} {effect t : State}

theorem Session.preRunWrite_of_preRun (h : c.phase = .preRun) (effect : State) :
    c.preRunWrite effect = some { c with core := effect } := by
  simp only [Session.preRunWrite, h]

theorem Session.preRunWrite_of_started (h : c.phase = .started) (effect : State) :
    c.preRunWrite effect = none := by
  simp only [Session.preRunWrite, h]

theorem Session.transact_step (h : step c.core = .next t) :
    c.transact .step = some { core := t, phase := .started } := by
  simp only [Session.transact, h]

/-- A STEP or a RUN that is answered has started the run. -/
theorem Session.transact_step_phase (h : c.transact .step = some d) : d.phase = .started := by
  obtain ⟨t, -, rfl⟩ := Session.transact_step_eq_some h
  rfl

theorem Session.transact_run_phase {n : Nat} (h : c.transact (.run n) = some d) : d.phase = .started := by
  obtain ⟨t, -, rfl⟩ := Session.transact_run_eq_some h
  rfl

end

/-- Settles O46: the write is a move of the pre-run phase; the fetch bound decides the rest. -/
theorem hostSetsTheEntryPoint : Obligations.HostSetsTheEntryPoint := by
  intro c v hphase hrun
  refine ⟨_, Session.preRunWrite_of_preRun hphase _, rfl, fun hle => ?_, fun hgt => ?_⟩
  · exact ⟨State.fetches_of_pc_le (s := c.core.setPc v) hrun hle, rfl⟩
  · have hfault := step_of_pc_gt (s := c.core.setPc v) hrun hgt
    exact ⟨_, Session.transact_step (c := { c with core := c.core.setPc v }) hfault, rfl, rfl⟩

/-- Settles O47: the write is a move of the pre-run phase, of one register. -/
theorem hostPresetsOneRegister : Obligations.HostPresetsOneRegister := by
  intro c i v hphase
  refine ⟨_, Session.preRunWrite_of_preRun hphase _, State.getReg_setReg_same c.core i v, fun j hj => ?_⟩
  exact State.getReg_setReg_other c.core v hj.symm

/-- Settles O48: a STEP and a RUN start the run, a write needs the pre-run phase, and a RESET is all that is
left. -/
theorem hostWritesOnlyBeforeTheRun : Obligations.HostWritesOnlyBeforeTheRun := by
  refine ⟨fun c d => Session.transact_step_phase, fun c d n => Session.transact_run_phase,
    fun c a i v w hphase => ?_, fun c d t hphase h hpre => ?_⟩
  · exact ⟨Session.preRunWrite_of_started hphase _, Session.preRunWrite_of_started hphase _,
      Session.preRunWrite_of_started hphase _⟩
  · cases t with
    | reset => rfl
    | writeMem a v => cases (Session.preRunWrite_of_started hphase _).symm.trans h
    | writePc v => cases (Session.preRunWrite_of_started hphase _).symm.trans h
    | writeReg i v => cases (Session.preRunWrite_of_started hphase _).symm.trans h
    | step => cases (Session.transact_step_phase h).symm.trans hpre
    | run n => cases (Session.transact_run_phase h).symm.trans hpre

/-- Settles O49: the three writes leave the internal state to the core. -/
theorem hostWritesReachNoInternalState : Obligations.HostWritesReachNoInternalState := by
  intro c d t hreset hstep hrun h
  cases t with
  | reset => exact absurd rfl hreset
  | step => exact absurd rfl hstep
  | run n => exact absurd rfl (hrun n)
  | writeMem a v =>
    obtain ⟨-, rfl⟩ := Session.preRunWrite_eq_some h
    exact ⟨rfl, rfl, rfl, rfl, rfl, rfl⟩
  | writePc v =>
    obtain ⟨-, rfl⟩ := Session.preRunWrite_eq_some h
    exact ⟨rfl, rfl, rfl, rfl, rfl, rfl⟩
  | writeReg i v =>
    obtain ⟨-, rfl⟩ := Session.preRunWrite_eq_some h
    exact ⟨rfl, rfl, rfl, rfl, rfl, rfl⟩

/-! ### A stopped core (10_state.md R19, 60_exceptions.md R128) -/

/-- `d` has the `STATUS` and the fault record of `c`, and all of it where the run of `c` has started: what
the host can still do to a stopped core. -/
def Session.KeepsStop (c d : Session) : Prop :=
  d.core.status = c.core.status ∧ d.core.cause = c.core.cause ∧ d.core.causeWord = c.core.causeWord ∧
    (c.phase = .started → d = c)

section
variable {c d e : Session}

theorem Session.keepsStop_refl (c : Session) : c.KeepsStop c := ⟨rfl, rfl, rfl, fun _ => rfl⟩

theorem Session.KeepsStop.trans (h : c.KeepsStop d) (h' : d.KeepsStop e) : c.KeepsStop e := by
  obtain ⟨hstatus, hcause, hword, hsame⟩ := h
  obtain ⟨hstatus', hcause', hword', hsame'⟩ := h'
  refine ⟨hstatus'.trans hstatus, hcause'.trans hcause, hword'.trans hword, fun hphase => ?_⟩
  have hd := hsame hphase
  exact (hsame' (hd ▸ hphase)).trans hd

/-- A STEP or a RUN of a stopped core may start the run and does nothing else. -/
theorem Session.keepsStop_start (c : Session) : c.KeepsStop { core := c.core, phase := .started } :=
  ⟨rfl, rfl, rfl, fun hphase => hphase ▸ rfl⟩

theorem Session.transact_keepsStop {t : Transaction} (hstop : c.core.status ≠ .running) (ht : t ≠ .reset)
    (h : c.transact t = some d) : c.KeepsStop d := by
  have hwrite (hs : t ≠ .step) (hr : ∀ n, t ≠ .run n) (hphase : c.phase ≠ .started) : c.KeepsStop d := by
    obtain ⟨-, -, hstatus, hcause, hword, -⟩ := hostWritesReachNoInternalState c d t ht hs hr h
    exact ⟨hstatus, hcause, hword, fun hstarted => absurd hstarted hphase⟩
  have hpre {effect : State} (hw : c.preRunWrite effect = some d) : c.phase ≠ .started := by
    simp [(Session.preRunWrite_eq_some hw).1]
  cases t with
  | reset => exact absurd rfl ht
  | writeMem a v => exact hwrite nofun nofun (hpre h)
  | writePc v => exact hwrite nofun nofun (hpre h)
  | writeReg i v => exact hwrite nofun nofun (hpre h)
  | step =>
    obtain ⟨t, hstep, rfl⟩ := Session.transact_step_eq_some h
    cases (step_of_stopped hstop).symm.trans hstep
    exact c.keepsStop_start
  | run n =>
    obtain ⟨t, hrun, rfl⟩ := Session.transact_run_eq_some h
    cases (runFuel_of_stopped n hstop).symm.trans hrun
    exact c.keepsStop_start

theorem Session.perform_cons_eq_some {t : Transaction} {ts : List Transaction}
    (h : c.perform (t :: ts) = some e) : ∃ d, c.transact t = some d ∧ d.perform ts = some e := by
  rw [Session.perform] at h
  split at h
  · exact ⟨_, ‹_›, h⟩
  · cases h

theorem Session.perform_keepsStop {ts : List Transaction} (hstop : c.core.status ≠ .running)
    (hts : Transaction.reset ∉ ts) (h : c.perform ts = some d) : c.KeepsStop d := by
  induction ts generalizing c with
  | nil =>
    cases h
    exact Session.keepsStop_refl _
  | cons t ts ih =>
    obtain ⟨ht, hrest⟩ := not_or.mp (List.mem_cons.not.mp hts)
    obtain ⟨e, htransact, hperform⟩ := Session.perform_cons_eq_some h
    have hfirst := Session.transact_keepsStop hstop (Ne.symm ht) htransact
    exact hfirst.trans (ih (hfirst.1 ▸ hstop) hrest hperform)

end

/-- Settles O50, by induction on the transactions. -/
theorem onlyResetLeavesAStop : Obligations.OnlyResetLeavesAStop := by
  intro ts c d hstop hts h
  obtain ⟨hstatus, hcause, hword, hsame⟩ := Session.perform_keepsStop hstop hts h
  exact ⟨hstatus, hcause, hword, fun hphase => congrArg Session.core (hsame hphase)⟩

/-! ## A word placed where the next step fetches (log entry 12) -/

theorem tableWord_toNat (w : Word) : tableWord 16 w.toNat = w := by
  rw [tableWord, Nat.mod_eq_of_lt w.isLt, BitVec.ofNat_toNat, BitVec.setWidth_eq]

/-- A `PC` that a fetch can start at is an address of memory. -/
theorem setWidth_pc_toNat {pc : Word} (h : fetchOk pc = true) : (pc.setWidth 12).toNat = pc.toNat := by
  have := (fetchOk_iff pc).mp h
  rw [BitVec.toNat_setWidth]
  omega

section
variable {s : State}

theorem State.placeAtFetch_fetches (s : State) (w : Word) : (s.placeAtFetch w).Fetches := s.readied_fetches

/-- The word placed is the word the next step fetches. -/
theorem State.wordAtPc_placeAtFetch (h : s.mem.wf) (w : Word) : (s.placeAtFetch w).wordAtPc = w := by
  have hok := s.readied_fetches.2
  have haddr := setWidth_pc_toNat hok
  have hread := Memory.read16_writeWord h (haddr ▸ (fetchOk_iff _).mp hok) w
  rwa [haddr] at hread

/-- In a state that fetches as it is, the word is placed at `PC`, and the state is otherwise unchanged. -/
theorem State.placeAtFetch_of_fetches (hf : s.Fetches) (w : Word) :
    s.placeAtFetch w = { s with mem := s.mem.writeWord (s.pc.setWidth 12) w } := by
  rw [State.placeAtFetch, State.readied_of_fetches hf.1 hf.2]

end

/-- Settles O51: the word placed is the encoding, which decodes to the instruction; placing it writes the two
bytes at `PC`. -/
theorem placedWordIsTheNextStep : Obligations.PlacedWordIsTheNextStep := by
  intro s i hwf
  rw [State.withFetchWord, tableWord_toNat]
  refine ⟨?_, fun hf => ⟨_, State.placeAtFetch_of_fetches hf _, fun b hb hb1 => ?_⟩⟩
  · refine step_of_fetches (s.placeAtFetch_fetches _) ?_
    rw [State.wordAtPc_placeAtFetch hwf, decodeWord_encode]
  · have haddr := setWidth_pc_toNat hf.2
    have hle := (fetchOk_iff s.pc).mp hf.2
    exact Memory.byteAt_writeWord_other s.mem (haddr ▸ hle) _ (haddr ▸ hb) (haddr ▸ hb1)

end Sys2Proof.Machine
